-- ==== Sys2Proof/Word.lean ====
section
/-!
DEFINITION. The types of values and of text. `WORD` (spec/00_scope.md R8, R9), the type of every register, RAM word,
stack entry, literal, counter and pc, is ℤ, and stands in the model as Lean's own `Int`, unbounded: nothing is narrowed
or widened (R12). Its arithmetic stands in Machine/Alu.lean.
-/

namespace Sys2Proof

/-- Source text and every string cut out of it, as its characters in order (R70; assumption 2). -/
abbrev Text := List Char

/-- An operand token or a mnemonic token (R74). -/
abbrev Token := Text

/-- One byte of the numeric instruction image (assumption 5); no memory of the CORE holds bytes (R54). -/
abbrev Byte := BitVec 8

end Sys2Proof
end

