-- ==== Sys2Proof/Config.lean ====
section
/-!
DEFINITION. What is fixed for the hardware: the closed name sets (registers, sensors, opcodes, operand kinds), the
two numeric parameters, the open parameters of spec/00_scope.md R8 as plain data, and the one free value (an
external sensor's draw, R221).
-/

namespace Sys2Proof

/-- `RAM_SIZE` (R8). -/
def Config.ramSize : Nat := 256

/-- `NOT_MASK` (R8): sixteen ones. -/
def Config.notMask : Int := 0xFFFF

/-- The closed set of six registers (R20). -/
inductive RegId where
  | speed | time | incline | acc | b | sp
deriving DecidableEq, Repr

/-- The three externally supplied sensors S_EXT1 to S_EXT3 (R220). -/
inductive ExtId where
  | ext1 | ext2 | ext3
deriving DecidableEq, Repr

/-- The closed set of six sensors (R220): three read machine state, three are supplied from outside. -/
inductive SensorId where
  | elapsed | speed | incline
  | ext (k : ExtId)
deriving DecidableEq, Repr

/-- The kind of an operand position, fixed by the opcode (R79). -/
inductive OperandKind where
  | dst | val | lbl | sns
deriving DecidableEq, Repr

/-- The closed set of 29 opcodes (R78), in the order of R82. -/
inductive Opcode where
  | iniciar | parar | status | halt | ret
  | inc | dec | goto | call | push | pop | jz | jnz | jl | jg | not
  | set | add | sub | mul | div | decjz | load | store | cmp | and | or | xor | readsensor
deriving DecidableEq, Repr

/-- `REG_NAME` (R7): the spelling of each register, an open parameter of the CORE (D2). -/
structure RegNames where
  speed   : Token
  time    : Token
  incline : Token
  acc     : Token
  b       : Token
  sp      : Token
deriving DecidableEq, Repr

/-- `SENSOR_NAME` (R220): the spelling of each sensor, an open parameter of the CORE (D3). -/
structure SensorNames where
  elapsed : Token
  speed   : Token
  incline : Token
  ext1    : Token
  ext2    : Token
  ext3    : Token
deriving DecidableEq, Repr

/-- One external value source as the host supplies it at construction (R221, R130), written as plain data
(assumption 4): which source it is, the values a host that substitutes a deterministic source has fixed for its
first draws, and its `EXT_BOUNDS` (none: unconstrained, the default of D4). DESIGN CHOICE: the spec gives `EXT_BOUNDS` no
form; here it is none or one closed interval, both ends given (assumption 18). -/
structure ExtSource where
  source : Nat
  script : List Int
  bounds : Option (Int × Int)
deriving DecidableEq, Repr

/-- The open parameters of R8, fixed when the machine is constructed (R130) and written by no step. -/
structure Params where
  regNames    : RegNames
  sensorNames : SensorNames
  ext1        : ExtSource
  ext2        : ExtSource
  ext3        : ExtSource
deriving DecidableEq, Repr

/-- The value an external source number `source` supplies for sensor number `sensor` at that sensor's draw number
`draw`, under no law (R221, D4): a free value, so a statement that meets it holds for every value of it. -/
opaque Config.extDraw (source sensor draw : Nat) : Int

/-- The spec's placeholder register spellings (R7). -/
def Config.placeholderRegNames : RegNames where
  speed   := ['S', 'P', 'E', 'E', 'D']
  time    := ['T', 'I', 'M', 'E']
  incline := ['I', 'N', 'C', 'L', 'I', 'N', 'E']
  acc     := ['A', 'C', 'C']
  b       := ['B']
  sp      := ['S', 'P']

/-- The spec's placeholder sensor spellings (R220). -/
def Config.placeholderSensorNames : SensorNames where
  elapsed := ['e', 'l', 'a', 'p', 's', 'e', 'd']
  speed   := ['s', 'p', 'e', 'e', 'd']
  incline := ['i', 'n', 'c', 'l', 'i', 'n', 'e']
  ext1    := ['e', 'x', 't', '1']
  ext2    := ['e', 'x', 't', '2']
  ext3    := ['e', 'x', 't', '3']

/-- A source of which nothing is known: no scripted value, no bounds (R221, D4). -/
def Config.freeSource (source : Nat) : ExtSource where
  source := source
  script := []
  bounds := none

/-- The parameters of the machine the spec's own examples speak of. -/
def Config.placeholderParams : Params where
  regNames    := Config.placeholderRegNames
  sensorNames := Config.placeholderSensorNames
  ext1        := Config.freeSource 0
  ext2        := Config.freeSource 0
  ext3        := Config.freeSource 0

end Sys2Proof
end

