-- ==== Sys2Proof/Syntax.lean ====
section
/-!
DEFINITION. The decoded instruction (spec/30_encoding.md R80): an opcode and its 0 to 2 raw operand tokens, one
constructor per row of spec/opcode_table.json, operands in source order. A token's meaning is settled only when the
instruction executes (R80, R81).
-/

namespace Sys2Proof

/-- The decoded instruction of R80. The operand names say the position's kind (R79): `reg` a `dst`, `value`, `addr`,
`left` and `right` a `val`, `label` an `lbl`, `name` an `sns`. -/
inductive Instr where
  | iniciar                           -- F0, opcode 0, R224
  | parar                             -- F0, opcode 1, R225
  | status                            -- F0, opcode 2, R226
  | halt                              -- F0, opcode 3, R227
  | ret                               -- F0, opcode 4, R143
  | inc (reg : Token)                 -- F1d, opcode 5, R161
  | dec (reg : Token)                 -- F1d, opcode 6, R162
  | goto (label : Token)              -- F1l, opcode 7, R140
  | call (label : Token)              -- F1l, opcode 8, R142
  | push (value : Token)              -- F1v, opcode 9, R180
  | pop (reg : Token)                 -- F1d, opcode 10, R181
  | jz (label : Token)                -- F1l, opcode 11, R144
  | jnz (label : Token)               -- F1l, opcode 12, R145
  | jl (label : Token)                -- F1l, opcode 13, R146
  | jg (label : Token)                -- F1l, opcode 14, R147
  | not (reg : Token)                 -- F1d, opcode 15, R203
  | set (reg value : Token)           -- F2dv, opcode 16, R160
  | add (reg value : Token)           -- F2dv, opcode 17, R163
  | sub (reg value : Token)           -- F2dv, opcode 18, R164
  | mul (reg value : Token)           -- F2dv, opcode 19, R165
  | div (reg value : Token)           -- F2dv, opcode 20, R166
  | decjz (reg label : Token)         -- F2dl, opcode 21, R141
  | load (reg addr : Token)           -- F2dv, opcode 22, R182
  | store (value addr : Token)        -- F2vv, opcode 23, R183
  | cmp (left right : Token)          -- F2vv, opcode 24, R204
  | and (reg value : Token)           -- F2dv, opcode 25, R200
  | or (reg value : Token)            -- F2dv, opcode 26, R201
  | xor (reg value : Token)           -- F2dv, opcode 27, R202
  | readsensor (reg name : Token)     -- F2ds, opcode 28, R223
deriving DecidableEq, Repr

end Sys2Proof
end

