-- ==== Sys2Proof/Machine/OpcodeMap.lean ====
section
/-!
DEFINITION. The opcode tables of spec/30_encoding.md: the numbers of R82, the mnemonics and arities of R78, the
operand kinds of R79, and the record (opcode, operand tokens) of R80 taken apart and put together.
-/

namespace Sys2Proof

/-- All 29 opcodes in the order of R82. -/
def Opcode.all : List Opcode :=
  [.iniciar, .parar, .status, .halt, .ret] ++
  [.inc, .dec, .goto, .call, .push, .pop, .jz, .jnz, .jl, .jg, .not] ++
  [.set, .add, .sub, .mul, .div, .decjz, .load, .store, .cmp, .and, .or, .xor, .readsensor]

/-- The opcode's number in the 5-bit field `opcode[4:0]` (R82). -/
def Opcode.code : Opcode → Nat
  | .iniciar => 0
  | .parar => 1
  | .status => 2
  | .halt => 3
  | .ret => 4
  | .inc => 5
  | .dec => 6
  | .goto => 7
  | .call => 8
  | .push => 9
  | .pop => 10
  | .jz => 11
  | .jnz => 12
  | .jl => 13
  | .jg => 14
  | .not => 15
  | .set => 16
  | .add => 17
  | .sub => 18
  | .mul => 19
  | .div => 20
  | .decjz => 21
  | .load => 22
  | .store => 23
  | .cmp => 24
  | .and => 25
  | .or => 26
  | .xor => 27
  | .readsensor => 28

/-- The opcode a number of the 5-bit field names; 29 to 31 name none (R82). -/
def Opcode.ofCode (n : Nat) : Option Opcode := Opcode.all.find? (fun op => op.code == n)

/-- The opcode's mnemonic in upper case (R78). -/
def Opcode.mnemonic : Opcode → Token
  | .iniciar => ['I', 'N', 'I', 'C', 'I', 'A', 'R']
  | .parar => ['P', 'A', 'R', 'A', 'R']
  | .status => ['S', 'T', 'A', 'T', 'U', 'S']
  | .halt => ['H', 'A', 'L', 'T']
  | .ret => ['R', 'E', 'T']
  | .inc => ['I', 'N', 'C']
  | .dec => ['D', 'E', 'C']
  | .goto => ['G', 'O', 'T', 'O']
  | .call => ['C', 'A', 'L', 'L']
  | .push => ['P', 'U', 'S', 'H']
  | .pop => ['P', 'O', 'P']
  | .jz => ['J', 'Z']
  | .jnz => ['J', 'N', 'Z']
  | .jl => ['J', 'L']
  | .jg => ['J', 'G']
  | .not => ['N', 'O', 'T']
  | .set => ['S', 'E', 'T']
  | .add => ['A', 'D', 'D']
  | .sub => ['S', 'U', 'B']
  | .mul => ['M', 'U', 'L']
  | .div => ['D', 'I', 'V']
  | .decjz => ['D', 'E', 'C', 'J', 'Z']
  | .load => ['L', 'O', 'A', 'D']
  | .store => ['S', 'T', 'O', 'R', 'E']
  | .cmp => ['C', 'M', 'P']
  | .and => ['A', 'N', 'D']
  | .or => ['O', 'R']
  | .xor => ['X', 'O', 'R']
  | .readsensor => ['R', 'E', 'A', 'D', 'S', 'E', 'N', 'S', 'O', 'R']

/-- The opcode an upper-cased mnemonic names, if it is one of the 29 (R75). -/
def Opcode.ofMnemonic (t : Token) : Option Opcode := Opcode.all.find? (fun op => op.mnemonic == t)

/-- The kinds of the opcode's operands, in order: its format (R79). -/
def Opcode.kinds : Opcode → List OperandKind
  | .iniciar => []
  | .parar => []
  | .status => []
  | .halt => []
  | .ret => []
  | .inc => [.dst]
  | .dec => [.dst]
  | .goto => [.lbl]
  | .call => [.lbl]
  | .push => [.val]
  | .pop => [.dst]
  | .jz => [.lbl]
  | .jnz => [.lbl]
  | .jl => [.lbl]
  | .jg => [.lbl]
  | .not => [.dst]
  | .set => [.dst, .val]
  | .add => [.dst, .val]
  | .sub => [.dst, .val]
  | .mul => [.dst, .val]
  | .div => [.dst, .val]
  | .decjz => [.dst, .lbl]
  | .load => [.dst, .val]
  | .store => [.val, .val]
  | .cmp => [.val, .val]
  | .and => [.dst, .val]
  | .or => [.dst, .val]
  | .xor => [.dst, .val]
  | .readsensor => [.dst, .sns]

/-- The opcode's operand count (R78). -/
def Opcode.arity (op : Opcode) : Nat := op.kinds.length

/-- The decoded instruction of an opcode and its operand tokens; none where the count is not the arity (R78, R80). -/
def Opcode.build : Opcode → List Token → Option Instr
  | .iniciar, [] => some .iniciar
  | .parar, [] => some .parar
  | .status, [] => some .status
  | .halt, [] => some .halt
  | .ret, [] => some .ret
  | .inc, [p] => some (.inc p)
  | .dec, [p] => some (.dec p)
  | .goto, [p] => some (.goto p)
  | .call, [p] => some (.call p)
  | .push, [p] => some (.push p)
  | .pop, [p] => some (.pop p)
  | .jz, [p] => some (.jz p)
  | .jnz, [p] => some (.jnz p)
  | .jl, [p] => some (.jl p)
  | .jg, [p] => some (.jg p)
  | .not, [p] => some (.not p)
  | .set, [p, q] => some (.set p q)
  | .add, [p, q] => some (.add p q)
  | .sub, [p, q] => some (.sub p q)
  | .mul, [p, q] => some (.mul p q)
  | .div, [p, q] => some (.div p q)
  | .decjz, [p, q] => some (.decjz p q)
  | .load, [p, q] => some (.load p q)
  | .store, [p, q] => some (.store p q)
  | .cmp, [p, q] => some (.cmp p q)
  | .and, [p, q] => some (.and p q)
  | .or, [p, q] => some (.or p q)
  | .xor, [p, q] => some (.xor p q)
  | .readsensor, [p, q] => some (.readsensor p q)
  | _, _ => none

/-- The opcode of a decoded instruction (R80). -/
def Instr.opcode : Instr → Opcode
  | .iniciar => .iniciar
  | .parar => .parar
  | .status => .status
  | .halt => .halt
  | .ret => .ret
  | .inc _ => .inc
  | .dec _ => .dec
  | .goto _ => .goto
  | .call _ => .call
  | .push _ => .push
  | .pop _ => .pop
  | .jz _ => .jz
  | .jnz _ => .jnz
  | .jl _ => .jl
  | .jg _ => .jg
  | .not _ => .not
  | .set _ _ => .set
  | .add _ _ => .add
  | .sub _ _ => .sub
  | .mul _ _ => .mul
  | .div _ _ => .div
  | .decjz _ _ => .decjz
  | .load _ _ => .load
  | .store _ _ => .store
  | .cmp _ _ => .cmp
  | .and _ _ => .and
  | .or _ _ => .or
  | .xor _ _ => .xor
  | .readsensor _ _ => .readsensor

/-- The raw operand tokens of a decoded instruction, in source order (R80). -/
def Instr.operands : Instr → List Token
  | .iniciar => []
  | .parar => []
  | .status => []
  | .halt => []
  | .ret => []
  | .inc p => [p]
  | .dec p => [p]
  | .goto p => [p]
  | .call p => [p]
  | .push p => [p]
  | .pop p => [p]
  | .jz p => [p]
  | .jnz p => [p]
  | .jl p => [p]
  | .jg p => [p]
  | .not p => [p]
  | .set p q => [p, q]
  | .add p q => [p, q]
  | .sub p q => [p, q]
  | .mul p q => [p, q]
  | .div p q => [p, q]
  | .decjz p q => [p, q]
  | .load p q => [p, q]
  | .store p q => [p, q]
  | .cmp p q => [p, q]
  | .and p q => [p, q]
  | .or p q => [p, q]
  | .xor p q => [p, q]
  | .readsensor p q => [p, q]

end Sys2Proof
end

