-- ==== Sys2Proof/Machine/Text.lean ====
section
/-!
DEFINITION. The text rules of spec/30_encoding.md: line splitting (R70), comments (R71), trimming (R72), tokens
(R74), ASCII case mapping (R75, R222) and integer literals (R76).
-/

namespace Sys2Proof

/-- Whitespace (R72): space, tab, LF, CR, vertical tab, form feed. -/
def isSpace (c : Char) : Bool :=
  c == ' ' || c == '\t' || c == '\n' || c == '\r' || c == Char.ofNat 11 || c == Char.ofNat 12

/-- A token separator (R74): whitespace or a comma. -/
def isSeparator (c : Char) : Bool := isSpace c || c == ','

/-- The lines of a text, split at LF, CR and the pair CR LF (R70). -/
def splitLines : Text → List Text
  | [] => [[]]
  | '\r' :: '\n' :: rest => [] :: splitLines rest
  | c :: rest =>
    if c == '\n' || c == '\r' then [] :: splitLines rest
    else
      match splitLines rest with
      | [] => [[c]]
      | line :: lines => (c :: line) :: lines

/-- The line up to its first `;` (R71). -/
def stripComment (line : Text) : Text := line.takeWhile (fun c => c != ';')

/-- The line without leading and trailing whitespace (R72). -/
def trim (line : Text) : Text := ((line.dropWhile isSpace).reverse.dropWhile isSpace).reverse

/-- The lines a load works on: comments stripped, trimmed, empty lines dropped (R71, R72). -/
def sourceLines (text : Text) : List Text :=
  ((splitLines text).map (fun line => trim (stripComment line))).filter (fun line => !line.isEmpty)

/-- The tokens of `rest`, where `seen` holds, last character first, the token being read (R74). -/
def tokensFrom (seen : Text) : Text → List Token
  | [] => if seen.isEmpty then [] else [seen.reverse]
  | c :: rest =>
    if isSeparator c then
      (if seen.isEmpty then tokensFrom [] rest else seen.reverse :: tokensFrom [] rest)
    else tokensFrom (c :: seen) rest

/-- The tokens of an instruction line: the maximal runs of characters that are neither whitespace nor comma (R74). -/
def tokens (line : Text) : List Token := tokensFrom [] line

/-- ASCII upper case of one character (R75, D14); every other character is itself. -/
def upperChar (c : Char) : Char :=
  if 97 ≤ c.toNat ∧ c.toNat ≤ 122 then Char.ofNat (c.toNat - 32) else c

/-- ASCII lower case of one character (R222, D14); every other character is itself. -/
def lowerChar (c : Char) : Char :=
  if 65 ≤ c.toNat ∧ c.toNat ≤ 90 then Char.ofNat (c.toNat + 32) else c

/-- The mapping of a mnemonic token to upper case (R75). -/
def upperText (t : Text) : Text := t.map upperChar

/-- The mapping of a sensor token to lower case (R222). -/
def lowerText (t : Text) : Text := t.map lowerChar

/-- A decimal digit of R76. -/
def isDigit (c : Char) : Bool := decide (48 ≤ c.toNat ∧ c.toNat ≤ 57)

/-- One or more decimal digits (R76). -/
def isDigits (t : Text) : Bool := !t.isEmpty && t.all isDigit

/-- The value of a run of decimal digits, leading zeros allowed (R76). -/
def decimalValue (t : Text) : Nat := t.foldl (fun n c => 10 * n + (c.toNat - 48)) 0

/-- The value of an integer literal, that is of a token matching `-?[0-9]+` (R76); none for any other token. -/
def literalValue (t : Token) : Option Int :=
  match t with
  | '-' :: ds => if isDigits ds then some (-(decimalValue ds : Int)) else none
  | ds => if isDigits ds then some (decimalValue ds : Int) else none

end Sys2Proof
end

