-- ==== Sys2Proof/WellFormed.lean ====
section
/-!
DEFINITION. The static checks: which decoded instructions the loader can produce (spec/30_encoding.md R71, R74, R80;
assumption 14) and which parameter values R7, R220 and R221 of the spec admit. Execution does not look at
either check: an operand token of any kind loads, and fails if at all when it executes (R80, R87).
-/

namespace Sys2Proof

/-- A character that can stand in an operand token: no whitespace, no comma (R80), no `;` (R71). -/
def isTokenChar (c : Char) : Bool := !isSeparator c && c != ';'

/-- An operand token of R80: non-empty and free of separators. -/
def Token.wf (t : Token) : Bool := !t.isEmpty && t.all isTokenChar

/-- The instruction is one an instruction line can hold: every operand is a token (R80). -/
def Instr.wf (i : Instr) : Bool := i.operands.all Token.wf

/-- A register spelling R7 admits: not a literal, without whitespace, comma or semicolon. -/
def regNameOk (t : Token) : Bool := (literalValue t).isNone && t.all isTokenChar

/-- The six spellings of `REG_NAME`, in the order of R20. -/
def RegNames.list (n : RegNames) : List Token := [n.speed, n.time, n.incline, n.acc, n.b, n.sp]

/-- The six spellings of `SENSOR_NAME`, in the order of R220. -/
def SensorNames.list (n : SensorNames) : List Token := [n.elapsed, n.speed, n.incline, n.ext1, n.ext2, n.ext3]

/-- R7: `REG_NAME` is injective and each spelling admissible. -/
def RegNames.wf (n : RegNames) : Bool := decide n.list.Nodup && n.list.all regNameOk

/-- D3: the six sensor spellings are lower case and distinct. -/
def SensorNames.wf (n : SensorNames) : Bool := decide n.list.Nodup && n.list.all (fun t => lowerText t == t)

/-- The value lies in the bounds, if there are any (R221; their form: assumption 18). -/
def withinBounds (bounds : Option (Int × Int)) (v : Int) : Bool :=
  match bounds with
  | none => true
  | some (lo, hi) => decide (lo ≤ v ∧ v ≤ hi)

/-- The bounds of a source are an interval with a value in it, and its scripted values lie there (R221). -/
def ExtSource.wf (e : ExtSource) : Bool :=
  (match e.bounds with
    | none => true
    | some (lo, hi) => decide (lo ≤ hi)) && e.script.all (withinBounds e.bounds)

/-- The parameters are ones the spec admits. -/
def Params.wf (p : Params) : Bool :=
  p.regNames.wf && p.sensorNames.wf && p.ext1.wf && p.ext2.wf && p.ext3.wf

end Sys2Proof
end

