-- ==== Sys2Proof/Decode.lean ====
section
/-!
DEFINITION. The CORE's decoder (spec/00_scope.md R1: the loader plays that role). First the two-pass loader from
source text (spec/30_encoding.md R83 to R85), with the printer of an instruction line; then the numeric form, whose
opcode field R82 gives and whose operand words are the model's own (assumption 5), with its encoder.
-/

namespace Sys2Proof

/-- The causes of a LoadError (R241). -/
inductive LoadErrKind where
  | unknownOpcode
  | arityMismatch
  | duplicateLabel
deriving DecidableEq, Repr

/-- The code of a LoadError, the digit after `L` (R241). -/
def LoadErrKind.code : LoadErrKind → Nat
  | .unknownOpcode => 1
  | .arityMismatch => 2
  | .duplicateLabel => 3

/-- The LoadError record of R245: its kind, the offending line after comment stripping and trimming, and for a
duplicate label its name. The code is `LoadErrKind.code`. -/
structure LoadError where
  kind  : LoadErrKind
  line  : Text
  label : Option Text
deriving DecidableEq, Repr

/-- The label table (R37): names with the instruction index each is bound to, in order of definition. -/
abbrev LabelTable := List (Text × Nat)

/-- `LBL(name)` (R112): an exact, case-sensitive match. -/
def lookupLabel : LabelTable → Text → Option Nat
  | [], _ => none
  | (n, k) :: rest, name => if n == name then some k else lookupLabel rest name

/-- A label line: its last character is `:` (R73). -/
def isLabelLine (line : Text) : Bool := line.getLast? == some ':'

/-- The name a label line defines: the line without its final `:`, trimmed again (R73). -/
def labelName (line : Text) : Text := trim line.dropLast

/-- Pass 1 (R83): `n` counts the instruction lines so far, `table` holds the labels so far. A duplicate is
reported with the line of the later definition (assumption 17). -/
def bindLabels (n : Nat) (table : LabelTable) : List Text → Except LoadError LabelTable
  | [] => .ok table
  | line :: rest =>
    if isLabelLine line then
      match lookupLabel table (labelName line) with
      | some _ => .error ⟨.duplicateLabel, line, some (labelName line)⟩
      | none => bindLabels n (table ++ [(labelName line, n)]) rest
    else bindLabels (n + 1) table rest

/-- One instruction line: tokenize, upper-case and look up the mnemonic, check the operand count (R74, R75, R78, R84,
R85). A line that has no token at all (only commas) names no mnemonic (assumption 16). -/
def decodeLine (line : Text) : Except LoadError Instr :=
  match tokens line with
  | [] => .error ⟨.unknownOpcode, line, none⟩
  | m :: ops =>
    match Opcode.ofMnemonic (upperText m) with
    | none => .error ⟨.unknownOpcode, line, none⟩
    | some op =>
      match op.build ops with
      | none => .error ⟨.arityMismatch, line, none⟩
      | some i => .ok i

/-- Pass 2 (R84): the instruction lines in order; the first failing one stops the load. -/
def decodeLines : List Text → Except LoadError (List Instr)
  | [] => .ok []
  | line :: rest =>
    if isLabelLine line then decodeLines rest
    else
      match decodeLine line with
      | .error e => .error e
      | .ok i =>
        match decodeLines rest with
        | .error e => .error e
        | .ok is => .ok (i :: is)

/-- The two-pass loader (R83 to R85): pass 1 runs to completion before pass 2 begins. -/
def assemble (text : Text) : Except LoadError (List Instr × LabelTable) :=
  match bindLabels 0 [] (sourceLines text) with
  | .error e => .error e
  | .ok table =>
    match decodeLines (sourceLines text) with
    | .error e => .error e
    | .ok program => .ok (program, table)

/-- The mnemonic and each operand after one space (R89). -/
def Instr.words (i : Instr) : Text := i.opcode.mnemonic ++ i.operands.flatMap (fun t => ' ' :: t)

/-- An instruction line that says the instruction (R89); where the words end in `:` a separator follows them, since
the line would be a label line without it (R73, R74). -/
def Instr.line (i : Instr) : Text := if isLabelLine i.words then i.words ++ [','] else i.words

/-- Why a numeric image is no instruction. -/
inductive DecodeError where
  /-- There is no byte left. -/
  | noInstruction
  /-- The opcode field holds 29, 30 or 31 (R82). -/
  | illegalOpcode (code : Nat)
  /-- The bytes end inside an operand. -/
  | truncated
  /-- The number in a character word is no character. -/
  | badCodePoint (code : Nat)
  /-- The last byte of a character word is neither 0 nor 1. -/
  | badContinuation (flag : Nat)
  /-- An operand is no token (R80). -/
  | illFormed (i : Instr)
  /-- The operand count is not the opcode's arity (R78). -/
  | arity (op : Opcode)
deriving DecidableEq, Repr

/-- One operand of a numeric image: character words of four bytes, in the first three the code point with its least
significant byte first, in the fourth 1 where another character follows and 0 in the last (assumption 5). -/
def decodeToken : List Byte → Except DecodeError (Token × List Byte)
  | b0 :: b1 :: b2 :: flag :: rest =>
    let code := b0.toNat + 256 * b1.toNat + 65536 * b2.toNat
    if code.isValidChar then
      if flag.toNat = 0 then .ok ([Char.ofNat code], rest)
      else if flag.toNat = 1 then
        match decodeToken rest with
        | .error e => .error e
        | .ok (t, rest') => .ok (Char.ofNat code :: t, rest')
      else .error (.badContinuation flag.toNat)
    else .error (.badCodePoint code)
  | _ => .error .truncated

/-- `n` operands of a numeric image, in order. -/
def decodeTokens : Nat → List Byte → Except DecodeError (List Token × List Byte)
  | 0, bytes => .ok ([], bytes)
  | n + 1, bytes =>
    match decodeToken bytes with
    | .error e => .error e
    | .ok (t, rest) =>
      match decodeTokens n rest with
      | .error e => .error e
      | .ok (ts, rest') => .ok (t :: ts, rest')

/-- The instruction a numeric image begins with, and the bytes after it: the opcode is bits 4 to 0 of the first byte
(R82; the table's mask leaves bits 7 to 5 out), and as many operands follow as its arity says (R78, R88). -/
def decode : List Byte → Except DecodeError (Instr × List Byte)
  | [] => .error .noInstruction
  | b :: rest =>
    match Opcode.ofCode (b.toNat % 32) with
    | none => .error (.illegalOpcode (b.toNat % 32))
    | some op =>
      match decodeTokens op.arity rest with
      | .error e => .error e
      | .ok (ts, rest') =>
        match op.build ts with
        | none => .error (.arity op)
        | some i => if i.wf then .ok (i, rest') else .error (.illFormed i)

/-- One character word of a numeric image; `more` where another character follows. -/
def encodeChar (more : Bool) (c : Char) : List Byte :=
  [BitVec.ofNat 8 (c.toNat % 256), BitVec.ofNat 8 (c.toNat / 256 % 256),
   BitVec.ofNat 8 (c.toNat / 65536), if more then 1 else 0]

/-- The character words of one operand. -/
def encodeToken : Token → List Byte
  | [] => []
  | [c] => encodeChar false c
  | c :: d :: rest => encodeChar true c ++ encodeToken (d :: rest)

/-- The numeric image of an instruction. -/
def encode (i : Instr) : List Byte :=
  BitVec.ofNat 8 i.opcode.code :: i.operands.flatMap encodeToken

/-- The first `n` bytes of a number, least significant first. -/
def bytesOf : Nat → Nat → List Byte
  | 0, _ => []
  | n + 1, w => BitVec.ofNat 8 (w % 256) :: bytesOf n (w / 256)

/-- The instruction the decoder reads from an image whose first `nbits` bits are `w`, bit 0 the least significant bit
of the first byte, and whose later bits are 0: two operands of one character each are the longest that all-zero
bytes make. -/
def decodeTableWord (nbits w : Nat) : Option Instr :=
  match decode (bytesOf ((nbits + 7) / 8) (w % 2 ^ nbits) ++ List.replicate 8 0) with
  | .ok (i, _) => some i
  | .error _ => none

end Sys2Proof
end

