-- ==== Sys2Proof/Machine/Alu.lean ====
section
/-!
DEFINITION. Arithmetic and logic on ℤ (spec/00_scope.md R9, R10; spec/42_arithmetic.md R162, R166 to R168;
spec/44_logic_compare.md R200 to R204). Sum, difference and product are those of `Int`.
-/

namespace Sys2Proof.Machine

/-- `floor_div(a, d)`, the quotient rounded toward negative infinity (R9, R168). -/
def floorDiv (a d : Int) : Int := Int.fdiv a d

/-- DEC's decrement, clamped at 0 (R162). -/
def decClamped (v : Int) : Int := max 0 (v - 1)

/-- `~v` on infinite two's complement (R10). -/
def bitNot (v : Int) : Int := -v - 1

/-- `a AND b` on infinite two's complement (R10). `Int.negSucc n` is `~n`; `m AND ~n` drops from `m` the bits it
shares with `n`. -/
def bitAnd (a b : Int) : Int :=
  match a, b with
  | .ofNat m, .ofNat n => .ofNat (m &&& n)
  | .ofNat m, .negSucc n => .ofNat (m ^^^ (m &&& n))
  | .negSucc m, .ofNat n => .ofNat (n ^^^ (n &&& m))
  | .negSucc m, .negSucc n => .negSucc (m ||| n)

/-- `a OR b` on infinite two's complement (R10), by De Morgan's law. -/
def bitOr (a b : Int) : Int := bitNot (bitAnd (bitNot a) (bitNot b))

/-- `a XOR b` on infinite two's complement (R10). -/
def bitXor (a b : Int) : Int :=
  match a, b with
  | .ofNat m, .ofNat n => .ofNat (m ^^^ n)
  | .ofNat m, .negSucc n => .negSucc (m ^^^ n)
  | .negSucc m, .ofNat n => .negSucc (m ^^^ n)
  | .negSucc m, .negSucc n => .ofNat (m ^^^ n)

/-- NOT's result, `(~v) AND NOT_MASK` (R203). -/
def notMasked (v : Int) : Int := bitAnd (bitNot v) Config.notMask

/-- `sign(v)` (R9). -/
def sign (v : Int) : Int := if v < 0 then -1 else if v = 0 then 0 else 1

end Sys2Proof.Machine
end

