-- ==== Sys2Proof/Machine/State.lean ====
section
/-!
DEFINITION. The state of the CORE (spec/10_state.md), as plain data, the value of every field when a machine is
constructed (R41, R270), and the ways a step can end other than in a next state.
-/

namespace Sys2Proof.Machine

/-- The register file (R20): six registers of ℤ. -/
structure Regs where
  speed   : Int
  time    : Int
  incline : Int
  acc     : Int
  b       : Int
  sp      : Int
deriving DecidableEq, Repr

/-- RAM (R35, R50): the words that are not 0, with their addresses, addresses strictly rising (assumption 6). -/
abbrev Memory := List (Nat × Int)

/-- What a word that is not listed reads as: RAM is all zero at construction (R41). -/
def Memory.unlisted : Int := 0

/-- The kinds of ExecError (R242), E1 to E7 in order. -/
inductive ErrKind where
  | invalidRegister
  | invalidOperand
  | unresolvedLabel
  | stackUnderflow
  | divisionByZero
  | unknownSensor
  | stepLimitExceeded
deriving DecidableEq, Repr

/-- The `info` of an ExecError (R242): nothing, the offending token, or the budget. -/
inductive ErrInfo where
  | none
  | token (t : Token)
  | budget (k : Int)
deriving DecidableEq, Repr

/-- The ExecError record of R245; its code is `ErrKind.code`. Opcode and operands are absent only for a
StepLimitExceeded whose pc is out of range. -/
structure ExecError where
  kind     : ErrKind
  info     : ErrInfo
  opcode   : Option Opcode
  operands : Option (List Token)
  pc       : Int
deriving DecidableEq, Repr

/-- The model's own fields, no state of the CORE: how often each external source has been asked (assumption 4) and
how many StatusEvents have gone out to the host (assumption 9). -/
structure HostIO where
  drawn1       : Nat
  drawn2       : Nat
  drawn3       : Nat
  statusEvents : Nat
deriving DecidableEq, Repr

/-- The state of the CORE (R39, R40, R42) with the parameters fixed at construction. -/
structure State where
  /-- The six registers (R20). -/
  regs        : Regs
  /-- The program counter, an instruction index (R27). -/
  pc          : Int
  /-- The one stack of PUSH, POP, CALL and RET, its top first (R34; assumption 13). -/
  stack       : List Int
  /-- The device is logically active (R28). -/
  running     : Bool
  /-- Execution has permanently stopped (R29). -/
  halted      : Bool
  /-- The fault latch (R30). -/
  fault       : Option ExecError
  /-- The last load failed (R31). -/
  loadFailed  : Bool
  /-- Steps that ended with `running` true (R32). -/
  elapsedTime : Int
  /-- Instructions completed without error since the last load (R33). -/
  steps       : Int
  /-- The program P (R36). -/
  program     : List Instr
  /-- The label table LBL (R37). -/
  labels      : List (Text × Nat)
  /-- RAM (R35). -/
  ram         : Memory
  /-- The open parameters (R8; assumption 3). -/
  params      : Params
  /-- The host's side of the interface (R130). -/
  io          : HostIO
deriving DecidableEq, Repr

/-- A fault that ends the machine without a next state: the spec gives the CORE none. An ExecError is latched in a
next state (R246; assumption 7), so this type has no constructor and no step answers a fault. -/
inductive Fault
deriving DecidableEq, Repr

/-- Why a step is refused. -/
inductive Refusal where
  /-- Raised by exec's arm of an instruction that has no meaning yet (none is left). Safe: nothing is claimed. -/
  | notModelled (mnemonic : String)
  /-- Raised by `step` while `loadFailed` is true: the spec refuses the operation and gives it no meaning (R31, R114,
  R273; assumption 8). Safe: the machine goes no further. -/
  | loadFailed
deriving DecidableEq, Repr

/-- All registers 0 (R21, R41). -/
def Regs.zero : Regs where
  speed   := 0
  time    := 0
  incline := 0
  acc     := 0
  b       := 0
  sp      := 0

/-- The host's side before any step. -/
def HostIO.fresh : HostIO where
  drawn1       := 0
  drawn2       := 0
  drawn3       := 0
  statusEvents := 0

/-- A newly constructed machine with the given parameters (R41 construction column, R270). -/
def State.construct (p : Params) : State where
  regs        := Regs.zero
  pc          := 0
  stack       := []
  running     := false
  halted      := false
  fault       := none
  loadFailed  := false
  elapsedTime := 0
  steps       := 0
  program     := []
  labels      := []
  ram         := []
  params      := p
  io          := HostIO.fresh

/-- The machine right after reset: constructed with the spec's placeholder parameters (R270; assumptions 3, 12). -/
def State.reset : State := State.construct Config.placeholderParams

end Sys2Proof.Machine
end

