-- ==== Sys2Proof/Machine/Ops.lean ====
section
/-!
DEFINITION. The named operations over registers, RAM and the stack, the end of a step, and the one way an
instruction's error is taken (spec/20_memory.md R50 to R53; spec/40_execution_loop.md R114 to R119;
spec/60_exceptions.md R242, R245, R246). There is no return from an error but a new load (R248).
-/

namespace Sys2Proof.Machine

/-- `x[r]` (R11). -/
def Regs.get (x : Regs) : RegId → Int
  | .speed => x.speed
  | .time => x.time
  | .incline => x.incline
  | .acc => x.acc
  | .b => x.b
  | .sp => x.sp

/-- `x[r] <- v` (R11). -/
def Regs.set (x : Regs) (r : RegId) (v : Int) : Regs :=
  match r with
  | .speed => { x with speed := v }
  | .time => { x with time := v }
  | .incline => { x with incline := v }
  | .acc => { x with acc := v }
  | .b => { x with b := v }
  | .sp => { x with sp := v }

/-- The form of RAM's list: addresses strictly rising, each a word of RAM, no word listed that is 0. -/
abbrev Memory.wf (m : Memory) : Prop :=
  m.Pairwise (fun c d => c.1 < d.1) ∧ ∀ c ∈ m, c.2 ≠ Memory.unlisted ∧ c.1 < Config.ramSize

/-- `MemRead(ea, 1)` (R52). -/
def Memory.read : Memory → Nat → Int
  | [], _ => Memory.unlisted
  | (b, w) :: m, a => if a = b then w else Memory.read m a

/-- `MemWrite(ea, 1, v)` (R53), keeping the list's form. -/
def Memory.write : Memory → Nat → Int → Memory
  | [], a, v => if v = Memory.unlisted then [] else [(a, v)]
  | (b, w) :: m, a, v =>
    if a < b then (if v = Memory.unlisted then (b, w) :: m else (a, v) :: (b, w) :: m)
    else if a = b then (if v = Memory.unlisted then m else (a, v) :: m)
    else (b, w) :: Memory.write m a v

/-- The effective address of a RAM access: the non-negative residue modulo `RAM_SIZE` (R51). -/
def effectiveAddress (addr : Int) : Nat := (addr % (Config.ramSize : Int)).toNat

/-- The state with `x[r]` written. -/
def State.setReg (s : State) (r : RegId) (v : Int) : State := { s with regs := s.regs.set r v }

/-- The state with one RAM word written. -/
def State.setRam (s : State) (ea : Nat) (v : Int) : State := { s with ram := s.ram.write ea v }

/-- `Push(v)` (R11, R34). -/
def State.push (s : State) (v : Int) : State := { s with stack := v :: s.stack }

/-- The code of an ExecError, the digit after `E` (R242). -/
def ErrKind.code : ErrKind → Nat
  | .invalidRegister => 1
  | .invalidOperand => 2
  | .unresolvedLabel => 3
  | .stackUnderflow => 4
  | .divisionByZero => 5
  | .unknownSensor => 6
  | .stepLimitExceeded => 7

/-- `raise K(info)` (R12): what an instruction's rule stops with. -/
structure Raised where
  kind : ErrKind
  info : ErrInfo
deriving DecidableEq, Repr

/-- What an instruction's rule leaves when it reaches no `raise`: the state with the rule's writes, and the pc it
wrote, if it wrote one (R13, R115). -/
structure Done where
  state  : State
  target : Option Int
deriving DecidableEq, Repr

/-- A rule that writes no pc (R115). -/
def Done.advance (s : State) : Done := ⟨s, none⟩

/-- A rule that writes pc (R115). -/
def Done.jump (s : State) (t : Int) : Done := ⟨s, some t⟩

/-- `Wrap(K, info, I, pc)` (R119, R245). -/
def wrap (e : Raised) (i : Instr) (pc : Int) : ExecError where
  kind     := e.kind
  info     := e.info
  opcode   := some i.opcode
  operands := some i.operands
  pc       := pc

/-- Error entry (R246): the record goes into the fault latch, and nothing else changes (R117, R247). -/
def takeError (s : State) (e : ExecError) : State := { s with fault := some e }

/-- The end-of-step counters (R116): `steps` always, `elapsed_time` while `running` is true as the body left it. -/
def endStep (s : State) : State :=
  { s with
    steps := s.steps + 1
    elapsedTime := if s.running then s.elapsedTime + 1 else s.elapsedTime }

/-- What the loop makes of an instruction's rule (R114): the error taken with none of the rule's writes, or the
writes committed, pc advanced where the rule wrote none (R115), and the counters updated. -/
def conclude (i : Instr) (s : State) (body : Except Raised Done) : Host.Outcome State Fault Refusal :=
  match body with
  | .error e => .next (takeError s (wrap e i s.pc))
  | .ok d => .next (endStep { d.state with pc := d.target.getD (s.pc + 1) })

end Sys2Proof.Machine
end

