-- ==== Sys2Proof/Machine/Operands.lean ====
section
/-!
DEFINITION. The operand primitives of spec/40_execution_loop.md R110 to R113 with the operand classes of
spec/30_encoding.md R81, and the sensor bank of spec/45_sensor_device.md R220 to R222.
-/

namespace Sys2Proof.Machine

/-- `REG_NAME(r)` (R7). -/
def regName (n : RegNames) : RegId → Token
  | .speed => n.speed
  | .time => n.time
  | .incline => n.incline
  | .acc => n.acc
  | .b => n.b
  | .sp => n.sp

/-- The register a token names: it equals the spelling exactly (R22, R77). -/
def findReg (n : RegNames) (t : Token) : Option RegId :=
  [RegId.speed, .time, .incline, .acc, .b, .sp].find? (fun r => regName n r == t)

/-- `SENSOR_NAME(k)` (R220). -/
def sensorName (n : SensorNames) : SensorId → Token
  | .elapsed => n.elapsed
  | .speed => n.speed
  | .incline => n.incline
  | .ext .ext1 => n.ext1
  | .ext .ext2 => n.ext2
  | .ext .ext3 => n.ext3

/-- The sensor a token names: lower-cased, it equals the name (R222). -/
def findSensor (n : SensorNames) (t : Token) : Option SensorId :=
  [SensorId.elapsed, .speed, .incline, .ext .ext1, .ext .ext2, .ext .ext3].find?
    (fun k => sensorName n k == lowerText t)

/-- The class of a `val` operand (R81). -/
inductive ValClass where
  | reg (r : RegId)
  | lit (n : Int)
  | bad (t : Token)
deriving DecidableEq, Repr

/-- The classification of a `val` token (R81): a register name, else a literal, else neither. -/
def classVal (n : RegNames) (t : Token) : ValClass :=
  match findReg n t with
  | some r => .reg r
  | none =>
    match literalValue t with
    | some v => .lit v
    | none => .bad t

/-- `Resolve(op)` (R110). -/
def resolve (s : State) (t : Token) : Except Raised Int :=
  match classVal s.params.regNames t with
  | .reg r => .ok (s.regs.get r)
  | .lit v => .ok v
  | .bad t => .error ⟨.invalidOperand, .token t⟩

/-- `Dst(op)` (R111). -/
def dst (s : State) (t : Token) : Except Raised RegId :=
  match findReg s.params.regNames t with
  | some r => .ok r
  | none => .error ⟨.invalidRegister, .token t⟩

/-- `Target(op)` (R112). -/
def target (s : State) (t : Token) : Except Raised Int :=
  match lookupLabel s.labels t with
  | some k => .ok (k : Int)
  | none => .error ⟨.unresolvedLabel, .token t⟩

/-- `SensorOf(op)` (R113, R222). -/
def sensorOf (s : State) (t : Token) : Except Raised SensorId :=
  match findSensor s.params.sensorNames t with
  | some k => .ok k
  | none => .error ⟨.unknownSensor, .token t⟩

/-- The value kept within `EXT_BOUNDS` (R221; their form: assumption 18): it itself where there are none or it lies
there. -/
def clampTo (bounds : Option (Int × Int)) (v : Int) : Int :=
  match bounds with
  | none => v
  | some (lo, hi) => max lo (min hi v)

/-- The value a source supplies for sensor number `sensor` at that sensor's draw number `draw` (R221, assumption 4):
the host's scripted value where it substituted one, else a free value; within the source's bounds. -/
def sourceValue (e : ExtSource) (sensor draw : Nat) : Int :=
  clampTo e.bounds ((e.script[draw]?).getD (Config.extDraw e.source sensor draw))

/-- One draw from `EXT_SENSOR(k)` (R220, R221): the value, and the state in which that draw has been made. -/
def drawExt (s : State) : ExtId → Int × State
  | .ext1 => (sourceValue s.params.ext1 1 s.io.drawn1, { s with io := { s.io with drawn1 := s.io.drawn1 + 1 } })
  | .ext2 => (sourceValue s.params.ext2 2 s.io.drawn2, { s with io := { s.io with drawn2 := s.io.drawn2 + 1 } })
  | .ext3 => (sourceValue s.params.ext3 3 s.io.drawn3, { s with io := { s.io with drawn3 := s.io.drawn3 + 1 } })

/-- `SensorValue(k)` (R220, R223): the value current when READSENSOR executes; for an external sensor one draw. -/
def sensorValue (s : State) : SensorId → Int × State
  | .elapsed => (s.elapsedTime, s)
  | .speed => (s.regs.speed, s)
  | .incline => (s.regs.incline, s)
  | .ext k => drawExt s k

end Sys2Proof.Machine
end

