-- ==== Sys2Proof/Machine/Arith.lean ====
section
/-!
DEFINITION. Assignment and arithmetic (spec/42_arithmetic.md R160 to R168): SET, INC, DEC, ADD, SUB, MUL, DIV; and
the two shapes they share with the logic family.
-/

namespace Sys2Proof.Machine

/-- The shape `r <- Dst(reg); x[r] <- f(x[r])`. -/
def unaryOp (i : Instr) (f : Int → Int) (reg : Token) (s : State) : Host.Outcome State Fault Refusal :=
  conclude i s do
    let r ← dst s reg
    return Done.advance (s.setReg r (f (s.regs.get r)))

/-- The shape `r <- Dst(reg); v <- Resolve(value); x[r] <- f(x[r], v)`. -/
def binaryOp (i : Instr) (f : Int → Int → Int) (reg value : Token) (s : State) :
    Host.Outcome State Fault Refusal :=
  conclude i s do
    let r ← dst s reg
    let v ← resolve s value
    return Done.advance (s.setReg r (f (s.regs.get r) v))

/-- SET (R160). -/
def execSet (reg value : Token) (s : State) : Host.Outcome State Fault Refusal :=
  binaryOp (.set reg value) (fun _ v => v) reg value s

/-- INC (R161). -/
def execInc (reg : Token) (s : State) : Host.Outcome State Fault Refusal :=
  unaryOp (.inc reg) (fun x => x + 1) reg s

/-- DEC (R162), clamped at 0. -/
def execDec (reg : Token) (s : State) : Host.Outcome State Fault Refusal :=
  unaryOp (.dec reg) decClamped reg s

/-- ADD (R163). -/
def execAdd (reg value : Token) (s : State) : Host.Outcome State Fault Refusal :=
  binaryOp (.add reg value) (fun x v => x + v) reg value s

/-- SUB (R164). -/
def execSub (reg value : Token) (s : State) : Host.Outcome State Fault Refusal :=
  binaryOp (.sub reg value) (fun x v => x - v) reg value s

/-- MUL (R165). -/
def execMul (reg value : Token) (s : State) : Host.Outcome State Fault Refusal :=
  binaryOp (.mul reg value) (fun x v => x * v) reg value s

/-- DIV (R166): a zero divisor raises after the operand checks. -/
def execDiv (reg value : Token) (s : State) : Host.Outcome State Fault Refusal :=
  conclude (.div reg value) s do
    let r ← dst s reg
    let d ← resolve s value
    if d = 0 then
      throw ⟨.divisionByZero, .none⟩
    else
      return Done.advance (s.setReg r (floorDiv (s.regs.get r) d))

end Sys2Proof.Machine
end

