-- ==== Sys2Proof/Machine/Flags.lean ====
section
/-!
DEFINITION. The CORE has no flag register (spec/10_state.md R38): its comparison result is the value CMP puts into
ACC (spec/44_logic_compare.md R204), and the conditional jumps test ACC (spec/41_control_transfer.md R144 to R147).
-/

namespace Sys2Proof.Machine

/-- CMP's result, `sign(u - w)` (R204). -/
def cmpResult (u w : Int) : Int := sign (u - w)

/-- JZ's condition (R144). -/
def accZero (s : State) : Bool := decide (s.regs.get .acc = 0)

/-- JNZ's condition (R145). -/
def accNonzero (s : State) : Bool := decide (s.regs.get .acc ≠ 0)

/-- JL's condition, ACC the left operand (R146). -/
def accLess (s : State) : Bool := decide (s.regs.get .acc < s.regs.get .b)

/-- JG's condition, ACC the left operand (R147). -/
def accGreater (s : State) : Bool := decide (s.regs.get .acc > s.regs.get .b)

end Sys2Proof.Machine
end

