-- ==== Sys2Proof/Machine/Control.lean ====
section
/-!
DEFINITION. Control transfer (spec/41_control_transfer.md R140 to R149): GOTO, DECJZ, CALL, RET, JZ, JNZ, JL, JG.
-/

namespace Sys2Proof.Machine

/-- The shape of a conditional jump: the label is looked up whether or not the jump is taken (R112, R144 to R147). -/
def jumpIf (i : Instr) (label : Token) (taken : Bool) (s : State) : Host.Outcome State Fault Refusal :=
  conclude i s do
    let t ← target s label
    return if taken then Done.jump s t else Done.advance s

/-- GOTO (R140). -/
def execGoto (label : Token) (s : State) : Host.Outcome State Fault Refusal :=
  conclude (.goto label) s do
    let t ← target s label
    return Done.jump s t

/-- DECJZ (R141): register and label are checked first; the decrement has no floor. -/
def execDecjz (reg label : Token) (s : State) : Host.Outcome State Fault Refusal :=
  conclude (.decjz reg label) s do
    let r ← dst s reg
    let t ← target s label
    let v := s.regs.get r
    return if v = 0 then Done.jump s t else Done.advance (s.setReg r (v - 1))

/-- CALL (R142): the index after the CALL goes on the one stack. -/
def execCall (label : Token) (s : State) : Host.Outcome State Fault Refusal :=
  conclude (.call label) s do
    let t ← target s label
    return Done.jump (s.push (s.pc + 1)) t

/-- RET (R143): the popped value is used unchecked. -/
def execRet (s : State) : Host.Outcome State Fault Refusal :=
  conclude .ret s
    (match s.stack with
      | [] => .error ⟨.stackUnderflow, .none⟩
      | v :: rest => .ok (Done.jump { s with stack := rest } v))

/-- JZ (R144). -/
def execJz (label : Token) (s : State) : Host.Outcome State Fault Refusal :=
  jumpIf (.jz label) label (accZero s) s

/-- JNZ (R145). -/
def execJnz (label : Token) (s : State) : Host.Outcome State Fault Refusal :=
  jumpIf (.jnz label) label (accNonzero s) s

/-- JL (R146). -/
def execJl (label : Token) (s : State) : Host.Outcome State Fault Refusal :=
  jumpIf (.jl label) label (accLess s) s

/-- JG (R147). -/
def execJg (label : Token) (s : State) : Host.Outcome State Fault Refusal :=
  jumpIf (.jg label) label (accGreater s) s

end Sys2Proof.Machine
end

