-- ==== Sys2Proof/Machine/Device.lean ====
section
/-!
DEFINITION. Sensor read and device control (spec/45_sensor_device.md R223 to R227): READSENSOR, INICIAR, PARAR,
STATUS, HALT.
-/

namespace Sys2Proof.Machine

/-- READSENSOR (R223): an external source is asked only once both checks have passed, and then once. -/
def execReadsensor (reg name : Token) (s : State) : Host.Outcome State Fault Refusal :=
  conclude (.readsensor reg name) s do
    let r ← dst s reg
    let k ← sensorOf s name
    let (v, s') := sensorValue s k
    return Done.advance (s'.setReg r v)

/-- INICIAR (R224). -/
def execIniciar (s : State) : Host.Outcome State Fault Refusal :=
  conclude .iniciar s (.ok (Done.advance { s with running := true }))

/-- PARAR (R225). -/
def execParar (s : State) : Host.Outcome State Fault Refusal :=
  conclude .parar s (.ok (Done.advance { s with running := false }))

/-- `emit StatusEvent` (R226): one more event has gone out to the host (assumption 9). -/
def emitStatus (s : State) : State := { s with io := { s.io with statusEvents := s.io.statusEvents + 1 } }

/-- STATUS (R226): no architectural write. -/
def execStatus (s : State) : Host.Outcome State Fault Refusal :=
  conclude .status s (.ok (Done.advance (emitStatus s)))

/-- HALT (R227); pc advances, since HALT does not redirect it. -/
def execHalt (s : State) : Host.Outcome State Fault Refusal :=
  conclude .halt s (.ok (Done.advance { s with running := false, halted := true }))

end Sys2Proof.Machine
end

