-- ==== Sys2Proof/Machine/Logic.lean ====
section
/-!
DEFINITION. Bitwise logic and compare (spec/44_logic_compare.md R200 to R204): AND, OR, XOR, NOT, CMP.
-/

namespace Sys2Proof.Machine

/-- AND (R200). -/
def execAnd (reg value : Token) (s : State) : Host.Outcome State Fault Refusal :=
  binaryOp (.and reg value) bitAnd reg value s

/-- OR (R201). -/
def execOr (reg value : Token) (s : State) : Host.Outcome State Fault Refusal :=
  binaryOp (.or reg value) bitOr reg value s

/-- XOR (R202). -/
def execXor (reg value : Token) (s : State) : Host.Outcome State Fault Refusal :=
  binaryOp (.xor reg value) bitXor reg value s

/-- NOT (R203): the complement masked to 16 bits. -/
def execNot (reg : Token) (s : State) : Host.Outcome State Fault Refusal :=
  unaryOp (.not reg) notMasked reg s

/-- CMP (R204): both operands are read before ACC is written. -/
def execCmp (left right : Token) (s : State) : Host.Outcome State Fault Refusal :=
  conclude (.cmp left right) s do
    let u ← resolve s left
    let w ← resolve s right
    return Done.advance (s.setReg .acc (cmpResult u w))

end Sys2Proof.Machine
end

