-- ==== Sys2Proof/Machine/StackMem.lean ====
section
/-!
DEFINITION. Stack and memory access (spec/43_memory_stack.md R180 to R183): PUSH, POP, LOAD, STORE.
-/

namespace Sys2Proof.Machine

/-- PUSH (R180). -/
def execPush (value : Token) (s : State) : Host.Outcome State Fault Refusal :=
  conclude (.push value) s do
    let v ← resolve s value
    return Done.advance (s.push v)

/-- POP (R181): the register is checked before the stack. -/
def execPop (reg : Token) (s : State) : Host.Outcome State Fault Refusal :=
  conclude (.pop reg) s do
    let r ← dst s reg
    match s.stack with
    | [] => throw ⟨.stackUnderflow, .none⟩
    | v :: rest => return Done.advance (State.setReg { s with stack := rest } r v)

/-- LOAD (R182). -/
def execLoad (reg addr : Token) (s : State) : Host.Outcome State Fault Refusal :=
  conclude (.load reg addr) s do
    let r ← dst s reg
    let a ← resolve s addr
    return Done.advance (s.setReg r (s.ram.read (effectiveAddress a)))

/-- STORE (R183): both operands are read; the first is the value. -/
def execStore (value addr : Token) (s : State) : Host.Outcome State Fault Refusal :=
  conclude (.store value addr) s do
    let v ← resolve s value
    let a ← resolve s addr
    return Done.advance (s.setRam (effectiveAddress a) v)

end Sys2Proof.Machine
end

