-- ==== Sys2Proof/Machine/Dispatch.lean ====
section
/-!
DEFINITION. The decode table (spec/40_execution_loop.md R125): one arm per opcode, each the opcode's own rule.
-/

namespace Sys2Proof.Machine

def exec (i : Instr) (s : State) : Host.Outcome State Fault Refusal :=
  match i with
  | .iniciar => Sys2Proof.Machine.execIniciar s
  | .parar => Sys2Proof.Machine.execParar s
  | .status => Sys2Proof.Machine.execStatus s
  | .halt => Sys2Proof.Machine.execHalt s
  | .ret => Sys2Proof.Machine.execRet s
  | .inc reg => Sys2Proof.Machine.execInc reg s
  | .dec reg => Sys2Proof.Machine.execDec reg s
  | .goto label => Sys2Proof.Machine.execGoto label s
  | .call label => Sys2Proof.Machine.execCall label s
  | .push value => Sys2Proof.Machine.execPush value s
  | .pop reg => Sys2Proof.Machine.execPop reg s
  | .jz label => Sys2Proof.Machine.execJz label s
  | .jnz label => Sys2Proof.Machine.execJnz label s
  | .jl label => Sys2Proof.Machine.execJl label s
  | .jg label => Sys2Proof.Machine.execJg label s
  | .not reg => Sys2Proof.Machine.execNot reg s
  | .set reg value => Sys2Proof.Machine.execSet reg value s
  | .add reg value => Sys2Proof.Machine.execAdd reg value s
  | .sub reg value => Sys2Proof.Machine.execSub reg value s
  | .mul reg value => Sys2Proof.Machine.execMul reg value s
  | .div reg value => Sys2Proof.Machine.execDiv reg value s
  | .decjz reg label => Sys2Proof.Machine.execDecjz reg label s
  | .load reg addr => Sys2Proof.Machine.execLoad reg addr s
  | .store value addr => Sys2Proof.Machine.execStore value addr s
  | .cmp left right => Sys2Proof.Machine.execCmp left right s
  | .and reg value => Sys2Proof.Machine.execAnd reg value s
  | .or reg value => Sys2Proof.Machine.execOr reg value s
  | .xor reg value => Sys2Proof.Machine.execXor reg value s
  | .readsensor reg name => Sys2Proof.Machine.execReadsensor reg name s

end Sys2Proof.Machine
end

