-- ==== Sys2Proof/Machine/Cycle.lean ====
section
/-!
DEFINITION. The fetch-decode-execute cycle (spec/40_execution_loop.md R114, R118), and an instruction put where the
cycle fetches next.
-/

namespace Sys2Proof.Machine

/-- `P[pc]` where `0 ≤ pc < len(P)` (R27, R114). -/
def fetch (s : State) : Option Instr :=
  if 0 ≤ s.pc then s.program[s.pc.toNat]? else none

/-- One `step()` (R114). A latched fault and a halted machine change nothing; a pc out of range halts (R118). -/
def cycle (s : State) : Host.Outcome State Fault Refusal :=
  if s.loadFailed then .refused .loadFailed
  else if s.fault.isSome then .next s
  else if s.halted then .next s
  else
    match fetch s with
    | none => .next { s with halted := true }
    | some i => exec i s

/-- The state in which `i` is the instruction at pc and the next step fetches it: nothing latched or halted or
refused, and, where pc indexes no instruction, a program of `i` alone with pc at it (assumption 11). -/
def placeInstr (s : State) (i : Instr) : State :=
  let ready := { s with halted := false, fault := none, loadFailed := false }
  if (fetch s).isSome then { ready with program := s.program.set s.pc.toNat i }
  else { ready with program := [i], pc := 0 }

/-- `placeInstr` of the instruction a table word decodes to; the state itself where it decodes to none. -/
def placeWord (s : State) (nbits w : Nat) : State :=
  match decodeTableWord nbits w with
  | some i => placeInstr s i
  | none => s

end Sys2Proof.Machine
end

