-- ==== Sys2Proof/Machine/Step.lean ====
section
/-!
DEFINITION. One step of the CORE (spec/40_execution_loop.md R114), and the host's way to have one instruction fetched.
-/

namespace Sys2Proof.Machine

/-- `step()`. -/
def step (s : State) : Host.Outcome State Fault Refusal := cycle s

/-- The state in which the next step fetches and runs the instruction of a table word. -/
def State.withFetchWord (s : State) (nbits w : Nat) : State := placeWord s nbits w

end Sys2Proof.Machine
end

