-- ==== Sys2Proof/Machine/HostOps.lean ====
section
/-!
DEFINITION. The host's operations around a step (spec/40_execution_loop.md R120, R130, R131;
spec/70_reset_and_hazards.md R271 to R273): load, step with its return value, run, snapshot. Construction is
`State.construct`.
-/

namespace Sys2Proof.Machine

/-- What a host operation returns (R130). -/
inductive Return where
  | ok
  | loadErr (e : LoadError)
  | execErr (e : ExecError)
  | refused
deriving DecidableEq, Repr

/-- The reset at the start of a load (R271): everything but RAM, `loadFailed`, the parameters fixed at construction
and what has already passed between the host and the sources (assumption 15). -/
def cleared (s : State) : State :=
  { s with
    regs := Regs.zero
    pc := 0
    stack := []
    running := false
    halted := false
    fault := none
    elapsedTime := 0
    steps := 0
    program := []
    labels := [] }

/-- `load(text)` (R271 to R273). -/
def loadText (text : Text) (s : State) : Return × State :=
  match assemble text with
  | .error e => (.loadErr e, { cleared s with loadFailed := true })
  | .ok (program, labels) => (.ok, { cleared s with program := program, labels := labels, loadFailed := false })

/-- What `step()` returns with the state it leaves: an error exactly when the latch is set (R114). -/
def returnOf (s : State) : Return :=
  match s.fault with
  | some e => .execErr e
  | none => .ok

/-- `step()` as the host sees it (R114, R130). -/
def stepCall (s : State) : Return × State :=
  match step s with
  | .next t => (returnOf t, t)
  | .refused _ => (.refused, s)
  | .fault r => nomatch r

/-- `run`'s budget check (R120): a budget that is absent, zero or negative is no limit (R121). -/
def overBudget (budget : Option Int) (s : State) : Option Int :=
  match budget with
  | none => none
  | some k => if 0 < k ∧ k ≤ s.steps then some k else none

/-- `StepLimitRecord(pc)` (R120, R245): opcode and operands of the instruction at pc, absent out of range. -/
def stepLimitRecord (k : Int) (s : State) : ExecError where
  kind     := .stepLimitExceeded
  info     := .budget k
  opcode   := (fetch s).map Instr.opcode
  operands := (fetch s).map Instr.operands
  pc       := s.pc

/-- `run(max_steps)` (R120), cut after `fuel` rounds of its loop: the return value and the state reached, no return
value where the run was still going on (assumption 10). -/
def runFor (budget : Option Int) : Nat → State → Option Return × State
  | 0, s => (none, s)
  | fuel + 1, s =>
    if s.loadFailed then (some .refused, s)
    else
      match s.fault with
      | some e => (some (.execErr e), s)
      | none =>
        if s.halted then (some .ok, s)
        else
          match overBudget budget s with
          | some k => (some (.execErr (stepLimitRecord k s)), takeError s (stepLimitRecord k s))
          | none =>
            match stepCall s with
            | (.ok, t) => runFor budget fuel t
            | (r, t) => (some r, t)

/-- The snapshot (R40): the fields the host reads, RAM as all its words, the stack bottom to top. -/
structure Snapshot where
  regs        : Regs
  ram         : List Int
  stack       : List Int
  pc          : Int
  halted      : Bool
  running     : Bool
  elapsedTime : Int
  steps       : Int
  fault       : Option ExecError
deriving DecidableEq, Repr

/-- `snapshot()` (R40, R131): a copy; the state stays as it is. -/
def snapshot (s : State) : Snapshot where
  regs        := s.regs
  ram         := (List.range Config.ramSize).map s.ram.read
  stack       := s.stack.reverse
  pc          := s.pc
  halted      := s.halted
  running     := s.running
  elapsedTime := s.elapsedTime
  steps       := s.steps
  fault       := s.fault

end Sys2Proof.Machine
end

