-- ==== Sys2Proof/Safety.lean ====
section
/-!
DEFINITION. The terms claims are stated in: which operand names what (spec/40_execution_loop.md R110 to R113), the
state a completed and a failed instruction leave (R114 to R119), the order of an instruction's checks
(spec/60_exceptions.md R244), the four conditions of a run (spec/70_reset_and_hazards.md R279) and the invariant of
the machine.
-/

namespace Sys2Proof.Machine

/-- The six registers (R20). -/
def RegId.all : List RegId := [.speed, .time, .incline, .acc, .b, .sp]

/-- The six sensors (R220). -/
def SensorId.all : List SensorId := [.elapsed, .speed, .incline, .ext .ext1, .ext .ext2, .ext .ext3]

/-- The token names register `r`: it is its spelling (R22). -/
abbrev IsReg (s : State) (t : Token) (r : RegId) : Prop := t = regName s.params.regNames r

/-- The token names no register (R22). -/
abbrev NoReg (s : State) (t : Token) : Prop := ∀ r ∈ RegId.all, t ≠ regName s.params.regNames r

/-- As a `val` operand the token reads as `v` (R110): it names a register holding `v`, or it names no register and is
an integer literal of value `v`. -/
abbrev Reads (s : State) (t : Token) (v : Int) : Prop :=
  (∃ r ∈ RegId.all, IsReg s t r ∧ s.regs.get r = v) ∨ (NoReg s t ∧ literalValue t = some v)

/-- As a `val` operand the token is neither a register name nor a literal (R110). -/
abbrev Unreadable (s : State) (t : Token) : Prop := NoReg s t ∧ literalValue t = none

/-- The label table binds the name to the index (R37, R112). -/
abbrev BindsTo (s : State) (t : Token) (k : Nat) : Prop := (t, k) ∈ s.labels

/-- The label table has no such name (R112). -/
abbrev NoLabel (s : State) (t : Token) : Prop := t ∉ s.labels.map Prod.fst

/-- Names are unique in the label table (R37). -/
abbrev LabelsUnique (s : State) : Prop := (s.labels.map Prod.fst).Nodup

/-- The token names sensor `k`: lower-cased, it is its name (R222). -/
abbrev NamesSensor (s : State) (t : Token) (k : SensorId) : Prop :=
  lowerText t = sensorName s.params.sensorNames k

/-- The token names no sensor (R222). -/
abbrev NoSensor (s : State) (t : Token) : Prop :=
  ∀ k ∈ SensorId.all, lowerText t ≠ sensorName s.params.sensorNames k

/-- The instruction has this opcode number (R82) and these operand kinds (R79). -/
abbrev HasEncoding (i : Instr) (code : Nat) (kinds : List OperandKind) : Prop :=
  i.opcode.code = code ∧ i.opcode.kinds = kinds

/-- `s` with the end-of-step changes of R115 and R116: pc as given, one more step, and one more unit of elapsed time
if `running` is true in `s`. -/
def stepped (s : State) (pc : Int) : State :=
  { s with pc := pc, steps := s.steps + 1, elapsedTime := s.elapsedTime + (if s.running then 1 else 0) }

/-- `s` with the fault latch set to the record of R245 for instruction `i` at the state's pc, and nothing else
changed (R117, R246). -/
def faulted (s : State) (i : Instr) (k : ErrKind) (info : ErrInfo) : State :=
  { s with
    fault := some { kind := k, info := info, opcode := some i.opcode, operands := some i.operands, pc := s.pc } }

/-- Bit `n` of an integer as R10 reads it: `⌊v / 2^n⌋ mod 2`. -/
def bitAt (v : Int) (n : Nat) : Int := Int.fdiv v (2 ^ n) % 2

/-- The first check an operand of the given kind fails, if it fails one (R110 to R113). -/
def operandError (s : State) (kind : OperandKind) (t : Token) : Option Raised :=
  match kind with
  | .dst => if NoReg s t then some ⟨.invalidRegister, .token t⟩ else none
  | .val => if Unreadable s t then some ⟨.invalidOperand, .token t⟩ else none
  | .lbl => if NoLabel s t then some ⟨.unresolvedLabel, .token t⟩ else none
  | .sns => if NoSensor s t then some ⟨.unknownSensor, .token t⟩ else none

/-- The checks of R244 steps 1 to 4: the operands' own, in order, which is `dst` first, then `val` left to right,
then `lbl` or `sns`, in every format (R79). -/
def operandErrors (s : State) : List OperandKind → List Token → Option Raised
  | kind :: kinds, t :: ts => (operandError s kind t).or (operandErrors s kinds ts)
  | _, _ => none

/-- The instruction's own condition, step 5 of R244: an empty stack for POP and RET, a zero divisor for DIV. -/
def ownError (s : State) : Instr → Option Raised
  | .pop _ | .ret => if s.stack = [] then some ⟨.stackUnderflow, .none⟩ else none
  | .div _ value => if Reads s value 0 then some ⟨.divisionByZero, .none⟩ else none
  | _ => none

/-- The error an instruction reports: the first its checks reach, in the order of R244. -/
def firstError (s : State) (i : Instr) : Option Raised :=
  (operandErrors s i.opcode.kinds i.operands).or (ownError s i)

/-- The machine is between steps with nothing that stops the next one: no failed load, no latched fault, not halted
(R114). -/
abbrev Active (s : State) : Prop := s.loadFailed = false ∧ s.fault = none ∧ s.halted = false

/-- R279, *running*: the next step executes an instruction. -/
abbrev IsRunning (s : State) : Prop :=
  s.halted = false ∧ s.fault = none ∧ 0 ≤ s.pc ∧ s.pc < s.program.length

/-- R279, *about to stop*: the next step sets `halted`. -/
abbrev IsAboutToStop (s : State) : Prop :=
  s.halted = false ∧ s.fault = none ∧ ¬ (0 ≤ s.pc ∧ s.pc < s.program.length)

/-- R279, *halted*: the one successful final condition. -/
abbrev IsHalted (s : State) : Prop := s.halted = true ∧ s.fault = none

/-- R279, *faulted*: final, kept until a load. -/
abbrev IsFaulted (s : State) : Prop := s.fault.isSome = true

/-- A run from `s` returns `r` and leaves `t` (R120). -/
def RunEnds (budget : Option Int) (s : State) (r : Return) (t : State) : Prop :=
  ∃ fuel, runFor budget fuel s = (some r, t)

/-- A run from `s` never returns: a hang (R279). -/
def RunHangs (budget : Option Int) (s : State) : Prop := ∀ fuel, (runFor budget fuel s).1 = none

/-- The external source the host supplied for a sensor (R221). -/
def sourceOf (p : Params) : ExtId → ExtSource
  | .ext1 => p.ext1
  | .ext2 => p.ext2
  | .ext3 => p.ext3

/-- How often the source of a sensor has been asked. -/
def drawnOf (io : HostIO) : ExtId → Nat
  | .ext1 => io.drawn1
  | .ext2 => io.drawn2
  | .ext3 => io.drawn3

/-- The host's side after exactly one draw from one source (R223). -/
def oneMoreDraw (io : HostIO) : ExtId → HostIO
  | .ext1 => { io with drawn1 := io.drawn1 + 1 }
  | .ext2 => { io with drawn2 := io.drawn2 + 1 }
  | .ext3 => { io with drawn3 := io.drawn3 + 1 }

/-- The label names a list of lines defines, in order (R83). -/
def labelNames (lines : List Text) : List Text := (lines.filter isLabelLine).map labelName

/-- The number of instruction lines in a list of lines (R83). -/
def instructionCount (lines : List Text) : Nat := (lines.filter (fun l => !isLabelLine l)).length

/-- What holds of every state the host can bring about from a machine constructed with admissible parameters. -/
structure Inv (s : State) : Prop where
  /-- RAM's list is in its one form (assumption 6). -/
  ram : s.ram.wf
  /-- The parameters are admissible (R7, R220, R221). -/
  params : s.params.wf = true
  /-- `elapsed_time` is never negative (R32) … -/
  elapsed_nonneg : 0 ≤ s.elapsedTime
  /-- … and counts some of the steps that `steps` counts (R251). -/
  elapsed_le : s.elapsedTime ≤ s.steps
  /-- Every instruction of P is a record of R80. -/
  program : ∀ i ∈ s.program, i.wf = true
  /-- Label names are unique (R37). -/
  labels_unique : LabelsUnique s
  /-- A label's value is an instruction index in 0..len(P) (R86). -/
  labels_le : ∀ l ∈ s.labels, l.2 ≤ s.program.length
  /-- A faulted machine is not halted (R279). -/
  fault_not_halted : s.fault.isSome = true → s.halted = false
  /-- The latched record names pc and the instruction there (R245, R247). -/
  fault_record : ∀ e ∈ s.fault,
    e.pc = s.pc ∧ e.opcode = (fetch s).map Instr.opcode ∧ e.operands = (fetch s).map Instr.operands
  /-- A failed load leaves the values of R273. -/
  load_failed : s.loadFailed = true → s = { cleared s with loadFailed := true }

end Sys2Proof.Machine
end

