-- ==== Sys2Proof/Certificates/Slice0/Obligations.lean ====
section
/-!
DEFINITION. What the provers are asked about the machine. A docstring names the rules a statement formalises; where
one of them is marked in the spec as the spec's own decision or inference, the docstring names that mark. Error clauses
use `faulted`, the error entry of spec/60_exceptions.md R246 (the latch and the atomicity are the spec's decisions
D10 and D11).
-/

namespace Sys2Proof.Machine

/-- The rule of an instruction with the operands `dst`, `val` whose result, from the register's old value and the
value read, is a `w` with `result s old v w`: result, encoding, and errors in the order checked. -/
def DstValRule (mk : Token → Token → Instr) (code : Nat) (result : State → Int → Int → Int → Prop) : Prop :=
  ∀ (s : State) (reg value : Token), s.params.wf = true →
    HasEncoding (mk reg value) code [.dst, .val] ∧
    (∀ r v, IsReg s reg r → Reads s value v →
      ∃ w, result s (s.regs.get r) v w ∧
        exec (mk reg value) s = .next (stepped { s with regs := s.regs.set r w } (s.pc + 1))) ∧
    (NoReg s reg →
      exec (mk reg value) s = .next (faulted s (mk reg value) .invalidRegister (.token reg))) ∧
    (∀ r, IsReg s reg r → Unreadable s value →
      exec (mk reg value) s = .next (faulted s (mk reg value) .invalidOperand (.token value)))

/-- The rule of an instruction with the one operand `dst` whose result, from the register's old value, is a `w` with
`result old w`. -/
def DstRule (mk : Token → Instr) (code : Nat) (result : Int → Int → Prop) : Prop :=
  ∀ (s : State) (reg : Token), s.params.wf = true →
    HasEncoding (mk reg) code [.dst] ∧
    (∀ r, IsReg s reg r →
      ∃ w, result (s.regs.get r) w ∧
        exec (mk reg) s = .next (stepped { s with regs := s.regs.set r w } (s.pc + 1))) ∧
    (NoReg s reg → exec (mk reg) s = .next (faulted s (mk reg) .invalidRegister (.token reg)))

/-- The rule of a conditional jump: the label is checked whether or not the jump is taken. -/
def BranchRule (mk : Token → Instr) (code : Nat) (taken : State → Prop) : Prop :=
  ∀ (s : State) (label : Token), LabelsUnique s →
    HasEncoding (mk label) code [.lbl] ∧
    (∀ k, BindsTo s label k → taken s → exec (mk label) s = .next (stepped s k)) ∧
    (∀ k, BindsTo s label k → ¬ taken s → exec (mk label) s = .next (stepped s (s.pc + 1))) ∧
    (NoLabel s label → exec (mk label) s = .next (faulted s (mk label) .unresolvedLabel (.token label)))

end Sys2Proof.Machine

open Sys2Proof Sys2Proof.Machine

/-! ### Encoding and the loader -/

/-- Decoding the numeric image of a well-formed instruction gives it back and leaves the bytes after it. The opcode
field is R82's (decision D15); the operand words are the model's own (assumption 5). -/
def Obligations.NumericImageRoundTrip : Prop :=
  ∀ (i : Instr) (rest : List Byte), i.wf = true → decode (encode i ++ rest) = .ok (i, rest)

/-- Loading the text of a well-formed instruction's line gives the program of that instruction alone, with no label
(tokenizer details: decision D14). -/
def Obligations.InstructionLineRoundTrip : Prop :=
  ∀ i : Instr, i.wf = true → assemble i.line = .ok ([i], [])

/-- The 29 numbers of R82 (decision D15) decode to their opcodes, and 29, 30 and 31 to none. -/
def Obligations.OpcodeNumberWords : Prop :=
  (∀ n < 29, (decodeTableWord 8 n).map Instr.opcode = Opcode.all[n]?) ∧
    decodeTableWord 8 29 = none ∧ decodeTableWord 8 30 = none ∧ decodeTableWord 8 31 = none

/-- R78 with R75 (ASCII case mapping: decision D14) and R84: a line whose first token, upper-cased, is a mnemonic and
which has as many operands as its arity decodes to that opcode with those raw tokens; another count is ArityMismatch,
another first token UnknownOpcode (the record's line: decision D22). -/
def Obligations.InstructionLineDecoding : Prop :=
  (Opcode.all.filter (fun op => op.arity = 0) = [.iniciar, .parar, .status, .halt, .ret] ∧
    Opcode.all.filter (fun op => op.arity = 1) =
      [.inc, .dec, .goto, .call, .push, .pop, .jz, .jnz, .jl, .jg, .not] ∧
    Opcode.all.filter (fun op => op.arity = 2) =
      [.set, .add, .sub, .mul, .div, .decjz, .load, .store, .cmp, .and, .or, .xor, .readsensor] ∧
    ∀ op, op ∈ Opcode.all) ∧
  ∀ (line : Text) (m : Token) (ops : List Token), tokens line = m :: ops →
    (∀ op, upperText m = Opcode.mnemonic op → ops.length = op.arity →
      ∃ i, decodeLine line = .ok i ∧ i.opcode = op ∧ i.operands = ops) ∧
    (∀ op, upperText m = Opcode.mnemonic op → ops.length ≠ op.arity →
      decodeLine line = .error ⟨.arityMismatch, line, none⟩) ∧
    ((∀ op, upperText m ≠ Opcode.mnemonic op) → decodeLine line = .error ⟨.unknownOpcode, line, none⟩)

/-- R83: pass 1 binds each label to the number of instruction lines before it, and fails at the first label line whose
name an earlier one has. -/
def Obligations.LabelsBindNextInstruction : Prop :=
  ∀ lines : List Text,
    ((labelNames lines).Nodup → ∃ table, bindLabels 0 [] lines = .ok table ∧
      table.map Prod.fst = labelNames lines ∧
      ∀ before line after, lines = before ++ line :: after → isLabelLine line = true →
        lookupLabel table (labelName line) = some (instructionCount before)) ∧
    (∀ before line after, lines = before ++ line :: after → isLabelLine line = true →
      (labelNames before).Nodup → labelName line ∈ labelNames before →
        ∃ e, bindLabels 0 [] lines = .error e ∧ e.kind = .duplicateLabel ∧ e.label = some (labelName line))

/-- R84: pass 2 gives the instruction lines' instructions in order, or the error of the first line that fails, which is
UnknownOpcode or ArityMismatch. -/
def Obligations.InstructionLinesInOrder : Prop :=
  ∀ lines : List Text,
    (∀ program, decodeLines lines = .ok program ↔
      (lines.filter (fun l => !isLabelLine l)).map decodeLine = program.map Except.ok) ∧
    (∀ before line after e, lines = before ++ line :: after → isLabelLine line = false →
      (∀ l ∈ before, isLabelLine l = false → ∃ i, decodeLine l = .ok i) → decodeLine line = .error e →
        decodeLines lines = .error e ∧ (e.kind = .unknownOpcode ∨ e.kind = .arityMismatch))

/-- R85 (an inference the spec marks as derived): a duplicate label anywhere is reported in preference to any opcode
or arity error, and nothing else is reported as one. The record holds the line of the first definition that repeats an
earlier name (that it is this line: decision D22 and the model's choice, assumption 17). -/
def Obligations.DuplicateLabelReportedFirst : Prop :=
  ∀ text : Text,
    ((∃ e, assemble text = .error e ∧ e.kind = .duplicateLabel) ↔ ¬ (labelNames (sourceLines text)).Nodup) ∧
    ∀ before line after, sourceLines text = before ++ line :: after → isLabelLine line = true →
      (labelNames before).Nodup → labelName line ∈ labelNames before →
        assemble text = .error ⟨.duplicateLabel, line, some (labelName line)⟩

/-- What a load that succeeds builds: instructions that are records of R80, unique label names (R37), label values in
0..len(P) (R86), as many instructions as instruction lines (R84). -/
def Obligations.AssembledProgramIsWellFormed : Prop :=
  ∀ text program labels, assemble text = .ok (program, labels) →
    (∀ i ∈ program, i.wf = true) ∧ (labels.map Prod.fst).Nodup ∧ (∀ l ∈ labels, l.2 ≤ program.length) ∧
      program.length = instructionCount (sourceLines text)

/-! ### The 29 instructions -/

/-- R140. -/
def Obligations.GotoRule : Prop :=
  ∀ (s : State) (label : Token), LabelsUnique s →
    HasEncoding (.goto label) 7 [.lbl] ∧
    (∀ k, BindsTo s label k → exec (.goto label) s = .next (stepped s k)) ∧
    (NoLabel s label → exec (.goto label) s = .next (faulted s (.goto label) .unresolvedLabel (.token label)))

/-- R141, whose label check on an untaken branch is decision D9 and register check before the read decision D7. -/
def Obligations.DecjzRule : Prop :=
  ∀ (s : State) (reg label : Token), s.params.wf = true → LabelsUnique s →
    HasEncoding (.decjz reg label) 21 [.dst, .lbl] ∧
    (∀ r k, IsReg s reg r → BindsTo s label k → s.regs.get r = 0 →
      exec (.decjz reg label) s = .next (stepped s k)) ∧
    (∀ r k, IsReg s reg r → BindsTo s label k → s.regs.get r ≠ 0 →
      exec (.decjz reg label) s =
        .next (stepped { s with regs := s.regs.set r (s.regs.get r - 1) } (s.pc + 1))) ∧
    (NoReg s reg →
      exec (.decjz reg label) s = .next (faulted s (.decjz reg label) .invalidRegister (.token reg))) ∧
    (∀ r, IsReg s reg r → NoLabel s label →
      exec (.decjz reg label) s = .next (faulted s (.decjz reg label) .unresolvedLabel (.token label)))

/-- R142; the stack is written top first. -/
def Obligations.CallRule : Prop :=
  ∀ (s : State) (label : Token), LabelsUnique s →
    HasEncoding (.call label) 8 [.lbl] ∧
    (∀ k, BindsTo s label k →
      exec (.call label) s = .next (stepped { s with stack := (s.pc + 1) :: s.stack } k)) ∧
    (NoLabel s label → exec (.call label) s = .next (faulted s (.call label) .unresolvedLabel (.token label)))

/-- R143; the popped value becomes pc whatever it is. -/
def Obligations.RetRule : Prop :=
  HasEncoding .ret 4 [] ∧
  ∀ s : State,
    (∀ v rest, s.stack = v :: rest → exec .ret s = .next (stepped { s with stack := rest } v)) ∧
    (s.stack = [] → exec .ret s = .next (faulted s .ret .stackUnderflow .none))

/-- R144 and R145; the label check on an untaken branch is decision D9. -/
def Obligations.JumpOnZeroRules : Prop :=
  BranchRule .jz 11 (fun s => s.regs.get .acc = 0) ∧ BranchRule .jnz 12 (fun s => s.regs.get .acc ≠ 0)

/-- R146 and R147, ACC the left operand; the label check on an untaken branch is decision D9. -/
def Obligations.JumpOnOrderRules : Prop :=
  BranchRule .jl 13 (fun s => s.regs.get .acc < s.regs.get .b) ∧
    BranchRule .jg 14 (fun s => s.regs.get .acc > s.regs.get .b)

/-- R160; any literal of ℤ, decision D1. -/
def Obligations.SetRule : Prop := DstValRule .set 16 (fun _ _ v w => w = v)

/-- R161. -/
def Obligations.IncRule : Prop := DstRule .inc 5 (fun x w => w = x + 1)

/-- R162: the value less 1, or 0 where that is negative (of a value below 0: decision D6). -/
def Obligations.DecRule : Prop :=
  DstRule .dec 6 (fun x w => (1 ≤ x → w = x - 1) ∧ (x < 1 → w = 0))

/-- R163, R164, R165: the exact sum, difference and product. -/
def Obligations.AddSubMulRules : Prop :=
  DstValRule .add 17 (fun _ x v w => w = x + v) ∧ DstValRule .sub 18 (fun _ x v w => w = x - v) ∧
    DstValRule .mul 19 (fun _ x v w => w = x * v)

/-- R166 and R168: for a divisor `d` that is not 0 the quotient is the one integer `w` with `⌊x / d⌋ = w`, said
without division; a divisor 0 is an error, after the operand checks. -/
def Obligations.DivRule : Prop :=
  ∀ (s : State) (reg value : Token), s.params.wf = true →
    HasEncoding (.div reg value) 20 [.dst, .val] ∧
    (∀ r d, IsReg s reg r → Reads s value d → d ≠ 0 →
      ∃ w, (0 < d → w * d ≤ s.regs.get r ∧ s.regs.get r < (w + 1) * d) ∧
        (d < 0 → s.regs.get r ≤ w * d ∧ (w + 1) * d < s.regs.get r) ∧
        exec (.div reg value) s = .next (stepped { s with regs := s.regs.set r w } (s.pc + 1))) ∧
    (∀ r, IsReg s reg r → Reads s value 0 →
      exec (.div reg value) s = .next (faulted s (.div reg value) .divisionByZero .none)) ∧
    (NoReg s reg → exec (.div reg value) s = .next (faulted s (.div reg value) .invalidRegister (.token reg))) ∧
    (∀ r, IsReg s reg r → Unreadable s value →
      exec (.div reg value) s = .next (faulted s (.div reg value) .invalidOperand (.token value)))

/-- R180; the stack is written top first. -/
def Obligations.PushRule : Prop :=
  ∀ (s : State) (value : Token), s.params.wf = true →
    HasEncoding (.push value) 9 [.val] ∧
    (∀ v, Reads s value v →
      exec (.push value) s = .next (stepped { s with stack := v :: s.stack } (s.pc + 1))) ∧
    (Unreadable s value →
      exec (.push value) s = .next (faulted s (.push value) .invalidOperand (.token value)))

/-- R181; the register is checked before the stack. -/
def Obligations.PopRule : Prop :=
  ∀ (s : State) (reg : Token), s.params.wf = true →
    HasEncoding (.pop reg) 10 [.dst] ∧
    (∀ r v rest, IsReg s reg r → s.stack = v :: rest →
      exec (.pop reg) s = .next (stepped { s with regs := s.regs.set r v, stack := rest } (s.pc + 1))) ∧
    (NoReg s reg → exec (.pop reg) s = .next (faulted s (.pop reg) .invalidRegister (.token reg))) ∧
    (∀ r, IsReg s reg r → s.stack = [] →
      exec (.pop reg) s = .next (faulted s (.pop reg) .stackUnderflow .none))

/-- R182: the word whose address is the operand's residue modulo 256. -/
def Obligations.LoadRule : Prop :=
  DstValRule .load 22 (fun s _ a w => ∃ ea : Nat, (ea : Int) = a % 256 ∧ w = s.ram.read ea)

/-- R183: the word at the operand's residue modulo 256 reads as the value afterwards, every other word of RAM as
before, and nothing else changes but pc and the counters. -/
def Obligations.StoreRule : Prop :=
  ∀ (s : State) (value addr : Token), s.params.wf = true → s.ram.wf →
    HasEncoding (.store value addr) 23 [.val, .val] ∧
    (∀ v a, Reads s value v → Reads s addr a →
      ∃ ram, exec (.store value addr) s = .next (stepped { s with ram := ram } (s.pc + 1)) ∧
        ((effectiveAddress a : Nat) : Int) = a % 256 ∧
        ∀ b, ram.read b = if b = effectiveAddress a then v else s.ram.read b) ∧
    (Unreadable s value →
      exec (.store value addr) s = .next (faulted s (.store value addr) .invalidOperand (.token value))) ∧
    (∀ v, Reads s value v → Unreadable s addr →
      exec (.store value addr) s = .next (faulted s (.store value addr) .invalidOperand (.token addr)))

/-- R200, R201, R202, bit by bit as R10 reads an integer (all: decision D25). -/
def Obligations.AndOrXorRules : Prop :=
  DstValRule .and 25 (fun _ x v w => ∀ n, bitAt w n = 1 ↔ bitAt x n = 1 ∧ bitAt v n = 1) ∧
    DstValRule .or 26 (fun _ x v w => ∀ n, bitAt w n = 1 ↔ bitAt x n = 1 ∨ bitAt v n = 1) ∧
    DstValRule .xor 27 (fun _ x v w => ∀ n, bitAt w n = 1 ↔ ¬ (bitAt x n = 1 ↔ bitAt v n = 1))

/-- R203: the low 16 bits complemented; so the result lies in 0..65535, and NOT twice leaves `x mod 65536`. -/
def Obligations.NotRule : Prop :=
  DstRule .not 15 (fun x w => w = 65535 - x % 65536) ∧
  ∀ (s : State) (reg : Token) (r : RegId), s.params.wf = true → IsReg s reg r →
    ∃ t u, exec (.not reg) s = .next t ∧ exec (.not reg) t = .next u ∧
      0 ≤ t.regs.get r ∧ t.regs.get r ≤ 65535 ∧ u.regs.get r = s.regs.get r % 65536

/-- R204: ACC becomes the sign of the difference, whatever the operands name. -/
def Obligations.CmpRule : Prop :=
  ∀ (s : State) (left right : Token), s.params.wf = true →
    HasEncoding (.cmp left right) 24 [.val, .val] ∧
    (∀ u w, Reads s left u → Reads s right w →
      exec (.cmp left right) s =
        .next (stepped
          { s with regs := s.regs.set .acc (if u < w then -1 else if u = w then 0 else 1) } (s.pc + 1))) ∧
    (Unreadable s left →
      exec (.cmp left right) s = .next (faulted s (.cmp left right) .invalidOperand (.token left))) ∧
    (∀ u, Reads s left u → Unreadable s right →
      exec (.cmp left right) s = .next (faulted s (.cmp left right) .invalidOperand (.token right)))

/-- R223 with R220 to R222. The three derived sensors read the state before the step; an external one is asked exactly
once and gives a value within its bounds, the host's own where it substituted one (the form of a source is the
model's, assumption 4); on an error no source is asked (decision D26). -/
def Obligations.ReadsensorRule : Prop :=
  ∀ (s : State) (reg name : Token), s.params.wf = true →
    HasEncoding (.readsensor reg name) 28 [.dst, .sns] ∧
    (∀ r, IsReg s reg r → NamesSensor s name .elapsed →
      exec (.readsensor reg name) s =
        .next (stepped { s with regs := s.regs.set r s.elapsedTime } (s.pc + 1))) ∧
    (∀ r, IsReg s reg r → NamesSensor s name .speed →
      exec (.readsensor reg name) s =
        .next (stepped { s with regs := s.regs.set r (s.regs.get .speed) } (s.pc + 1))) ∧
    (∀ r, IsReg s reg r → NamesSensor s name .incline →
      exec (.readsensor reg name) s =
        .next (stepped { s with regs := s.regs.set r (s.regs.get .incline) } (s.pc + 1))) ∧
    (∀ r k, IsReg s reg r → NamesSensor s name (.ext k) →
      ∃ v, exec (.readsensor reg name) s =
          .next (stepped { s with regs := s.regs.set r v, io := oneMoreDraw s.io k } (s.pc + 1)) ∧
        withinBounds (sourceOf s.params k).bounds v = true ∧
        ∀ x, (sourceOf s.params k).script[drawnOf s.io k]? = some x → v = x) ∧
    (NoReg s reg →
      exec (.readsensor reg name) s = .next (faulted s (.readsensor reg name) .invalidRegister (.token reg))) ∧
    (∀ r, IsReg s reg r → NoSensor s name →
      exec (.readsensor reg name) s = .next (faulted s (.readsensor reg name) .unknownSensor (.token name)))

/-- R224 and R225: INICIAR's own step counts as elapsed; PARAR's does not, and execution goes on. -/
def Obligations.IniciarPararRules : Prop :=
  HasEncoding .iniciar 0 [] ∧ HasEncoding .parar 1 [] ∧
  ∀ s : State,
    exec .iniciar s = .next
      { s with running := true, pc := s.pc + 1, steps := s.steps + 1, elapsedTime := s.elapsedTime + 1 } ∧
    exec .parar s = .next { s with running := false, pc := s.pc + 1, steps := s.steps + 1 }

/-- R226 (the event's form is decision D19; that the model counts events is assumption 9). -/
def Obligations.StatusRule : Prop :=
  HasEncoding .status 2 [] ∧
  ∀ s : State, exec .status s = .next
    (stepped { s with io := { s.io with statusEvents := s.io.statusEvents + 1 } } (s.pc + 1))

/-- R227: HALT counts as a step, not as elapsed, advances pc, and every later step changes nothing. -/
def Obligations.HaltRule : Prop :=
  HasEncoding .halt 3 [] ∧
  ∀ s : State, ∃ t, exec .halt s = .next t ∧
    t = { s with running := false, halted := true, pc := s.pc + 1, steps := s.steps + 1 } ∧
    (s.loadFailed = false → step t = .next t)

/-! ### What an instruction may change -/

/-- Every instruction answers a next state, in every state and for all operands: nothing is refused. -/
def Obligations.EveryInstructionAnswers : Prop := ∀ (i : Instr) (s : State), ∃ t, exec i s = .next t

/-- R244 (decision D8): an instruction reports the first error its checks reach in that order, and completes without an
error where none of them fails. -/
def Obligations.ErrorCheckOrder : Prop :=
  ∀ (i : Instr) (s : State), s.params.wf = true →
    (∀ e, firstError s i = some e → exec i s = .next (faulted s i e.kind e.info)) ∧
    (firstError s i = none → ∃ t, exec i s = .next t ∧ t.fault = s.fault ∧ t.steps = s.steps + 1)

/-- R119 and R246, with R117 and R247 (that registers, RAM, flags and counters are unchanged too: decision D10; that the
error is a next state: assumption 7): an instruction that latches an error changes nothing else, the record names the instruction, its
operands, pc and, where there is one, the offending token, and a step that executes it returns the record to the
host. -/
def Obligations.FailingInstructionOnlyLatches : Prop :=
  ∀ (i : Instr) (s t : State) (e : ExecError), s.fault = none → exec i s = .next t → t.fault = some e →
    t = { s with fault := some e } ∧ e.opcode = some i.opcode ∧ e.operands = some i.operands ∧ e.pc = s.pc ∧
      (e.info = .none ∨ ∃ tok ∈ i.operands, e.info = .token tok) ∧
      (Active s → fetch s = some i → stepCall s = (.execErr e, t))

/-- R115 (of HALT an inference the spec marks as derived): pc advances by exactly 1 but where a jump is taken. -/
def Obligations.PcAdvancesUnlessRedirected : Prop :=
  ∀ (i : Instr) (s t : State), s.fault = none → exec i s = .next t → t.fault = none → t.pc ≠ s.pc + 1 →
    i.opcode ∈ [Opcode.goto, .call, .ret] ∨
    (i.opcode = .jz ∧ s.regs.get .acc = 0) ∨ (i.opcode = .jnz ∧ s.regs.get .acc ≠ 0) ∨
    (i.opcode = .jl ∧ s.regs.get .acc < s.regs.get .b) ∨ (i.opcode = .jg ∧ s.regs.get .acc > s.regs.get .b) ∨
    ∃ reg label r, i = .decjz reg label ∧ IsReg s reg r ∧ s.regs.get r = 0

/-- R116 and R251 (that a failed instruction is not counted: decision D10): every instruction that completes counts one
step, and one unit of elapsed time exactly when it leaves `running` true; a step changes neither counter otherwise, and
a load sets both to 0. -/
def Obligations.CountersCountSteps : Prop :=
  (∀ (i : Instr) (s t : State), s.fault = none → exec i s = .next t → t.fault = none →
    t.steps = s.steps + 1 ∧ t.elapsedTime = s.elapsedTime + (if t.running then 1 else 0)) ∧
  (∀ s t : State, step s = .next t → (fetch s = none ∨ t.fault.isSome = true ∨ s.halted = true) →
    t.steps = s.steps ∧ t.elapsedTime = s.elapsedTime) ∧
  ∀ (text : Text) (s : State), (loadText text s).2.steps = 0 ∧ (loadText text s).2.elapsedTime = 0

/-- R22: a step changes no register but the one its instruction names as destination, or ACC where the instruction is
CMP. -/
def Obligations.OnlyNamedRegistersChange : Prop :=
  ∀ (s t : State) (r : RegId), step s = .next t → t.regs.get r ≠ s.regs.get r →
    ∃ i, fetch s = some i ∧
      ((i.opcode.kinds.head? = some .dst ∧ ∃ tok, i.operands.head? = some tok ∧ IsReg s tok r) ∨
        (i.opcode = .cmp ∧ r = .acc))

/-- R53 and R183: a step changes a word of RAM only where it executes a STORE to that word, and then to the value
stored. -/
def Obligations.OnlyStoreChangesRam : Prop :=
  ∀ (s t : State) (b : Nat), s.ram.wf → step s = .next t → t.ram.read b ≠ s.ram.read b →
    ∃ value addr v a, fetch s = some (.store value addr) ∧ Reads s value v ∧ Reads s addr a ∧
      b = effectiveAddress a ∧ t.ram.read b = v

/-- R62, R36, R37: no step and no run changes P or the label table, nor a parameter (assumption 3), nor whether a load
failed; a load sets pc to 0 and leaves RAM (R272, decision D5). -/
def Obligations.ProgramIsReadOnly : Prop :=
  (∀ s t : State, step s = .next t →
    t.program = s.program ∧ t.labels = s.labels ∧ t.params = s.params ∧ t.loadFailed = s.loadFailed) ∧
  (∀ (budget : Option Int) (fuel : Nat) (s : State), (runFor budget fuel s).2.program = s.program ∧
    (runFor budget fuel s).2.labels = s.labels ∧ (runFor budget fuel s).2.params = s.params ∧
    (runFor budget fuel s).2.loadFailed = s.loadFailed) ∧
  ∀ (text : Text) (s : State), (loadText text s).2.pc = 0 ∧ (loadText text s).2.ram = s.ram

/-- R28: INICIAR sets `running` true, PARAR and HALT set it false, nothing else a step does changes it, a step that
halts at the end of the program leaves it, and what an instruction does otherwise does not depend on it but for the elapsed time. -/
def Obligations.RunningFlagRule : Prop :=
  (∀ s t : State, step s = .next t → t.running ≠ s.running →
    (t.running = true ∧ fetch s = some .iniciar) ∨
      (t.running = false ∧ (fetch s = some .parar ∨ fetch s = some .halt))) ∧
  (∀ s t : State, Active s → step s = .next t → (fetch s = some .iniciar → t.running = true) ∧
    (fetch s = some .parar ∨ fetch s = some .halt → t.running = false)) ∧
  (∀ s t : State, fetch s = none → step s = .next t → t.running = s.running) ∧
  ∀ (i : Instr) (s t u : State) (b : Bool), exec i s = .next t → exec i { s with running := b } = .next u →
    u = { t with running := u.running, elapsedTime := u.elapsedTime }

/-- R29: `halted` is set only by HALT and by a step whose pc is out of range, no step clears it, a load does, and while
it is true a step has no effect. -/
def Obligations.HaltedFlagRule : Prop :=
  (∀ s t : State, step s = .next t →
    (t.halted = true ↔
      s.halted = true ∨ (s.fault = none ∧ (fetch s = none ∨ fetch s = some .halt)))) ∧
  (∀ (text : Text) (s : State), (loadText text s).2.halted = false) ∧
  ∀ s : State, s.halted = true → s.loadFailed = false → step s = .next s

/-- R34 and R149: PUSH data and return addresses share one stack: RET after PUSH goes to the value pushed, POP after
CALL gets the index after the CALL, and RET after CALL goes there with the stack as before. -/
def Obligations.OneSharedStack : Prop :=
  ∀ s : State, s.params.wf = true → LabelsUnique s →
    (∀ value v, Reads s value v → ∃ t u, exec (.push value) s = .next t ∧ exec .ret t = .next u ∧
      u.pc = v ∧ u.stack = s.stack) ∧
    (∀ label k reg r, BindsTo s label k → IsReg s reg r →
      ∃ t u, exec (.call label) s = .next t ∧ exec (.pop reg) t = .next u ∧
        u.regs.get r = s.pc + 1 ∧ u.pc = k + 1 ∧ u.stack = s.stack) ∧
    (∀ label k, BindsTo s label k → ∃ t u, exec (.call label) s = .next t ∧ exec .ret t = .next u ∧
      t.pc = k ∧ u.pc = s.pc + 1 ∧ u.stack = s.stack)

/-- R226, R223: an event goes out exactly when a step executes STATUS, and a source is asked only when one executes a
READSENSOR of its sensor (how both are counted: assumptions 4 and 9). -/
def Obligations.HostSideChangesOnlyByStatusAndReadsensor : Prop :=
  ∀ s t : State, Active s → step s = .next t →
    (t.io.statusEvents = s.io.statusEvents + (if fetch s = some .status then 1 else 0)) ∧
    ∀ k, drawnOf t.io k ≠ drawnOf s.io k →
      drawnOf t.io k = drawnOf s.io k + 1 ∧
        ∃ reg name, fetch s = some (.readsensor reg name) ∧ NamesSensor s name (.ext k)

/-- The worked example of the source for CMP and the branches (spec/95_test_vectors.md W11, spec/90_conflicts.md C2):
after CMP, JZ jumps exactly when the operands are equal, JNZ when they differ, and, where B is 0, JL exactly when the
left one is less, JG when it is greater. -/
def Obligations.CompareThenBranch : Prop :=
  ∀ (s : State) (left right label : Token) (u w : Int) (k : Nat), s.params.wf = true → LabelsUnique s →
    Reads s left u → Reads s right w → BindsTo s label k →
    ∃ t, exec (.cmp left right) s = .next t ∧
      exec (.jz label) t = .next (stepped t (if u = w then k else t.pc + 1)) ∧
      exec (.jnz label) t = .next (stepped t (if u ≠ w then k else t.pc + 1)) ∧
      (s.regs.get .b = 0 →
        exec (.jl label) t = .next (stepped t (if u < w then k else t.pc + 1)) ∧
        exec (.jg label) t = .next (stepped t (if w < u then k else t.pc + 1)))

/-- The worked example of the source for RAM (spec/95_test_vectors.md W8; that addresses wrap is R51): a LOAD after a
STORE reads the value stored where the two addresses agree modulo 256, and what was there before where they do not. -/
def Obligations.StoreThenLoad : Prop :=
  ∀ (s : State) (value addr reg addr' : Token) (v a a' : Int) (r : RegId), s.params.wf = true → s.ram.wf →
    Reads s value v → Reads s addr a → Reads s addr' a' → IsReg s reg r →
    ∃ t u, exec (.store value addr) s = .next t ∧ exec (.load reg addr') t = .next u ∧
      (a % 256 = a' % 256 → u.regs.get r = v) ∧
      (a % 256 ≠ a' % 256 → u.regs.get r = s.ram.read (effectiveAddress a'))

/-! ### The cycle and the host's operations -/

/-- R114: a step with nothing latched, halted or refused runs exactly the instruction that P has at pc. -/
def Obligations.StepRunsFetchedInstruction : Prop :=
  ∀ (s : State) (i : Instr), Active s → 0 ≤ s.pc → s.program[s.pc.toNat]? = some i → step s = exec i s

/-- R118: a step with pc outside 0..len(P)−1 sets `halted` and does nothing else, every step after it has no effect, and
so an empty program halts on its first step. -/
def Obligations.StepOutOfRangeHalts : Prop :=
  ∀ s : State, Active s →
    (s.pc < 0 ∨ (s.program.length : Int) ≤ s.pc →
      step s = .next { s with halted := true } ∧
        step { s with halted := true } = .next { s with halted := true } ∧
        stepCall { s with halted := true } = (.ok, { s with halted := true })) ∧
    (s.program = [] → step s = .next { s with halted := true })

/-- R30, R248 (decision D11) and R31 (decision D13): with a latched fault `step` and `run` change nothing and return its
record; after a failed load both are refused. -/
def Obligations.LatchedFaultAndFailedLoad : Prop :=
  ∀ (s : State) (budget : Option Int),
    (∀ e, s.fault = some e → s.loadFailed = false →
      step s = .next s ∧ stepCall s = (.execErr e, s) ∧ ∀ t r, RunEnds budget s r t ↔ r = .execErr e ∧ t = s) ∧
    (s.loadFailed = true →
      step s = .refused .loadFailed ∧ stepCall s = (.refused, s) ∧
        ∀ t r, RunEnds budget s r t ↔ r = .refused ∧ t = s)

/-- R270 (that the first step before any load halts is an inference the spec marks as derived). -/
def Obligations.ConstructedMachineState : Prop :=
  ∀ p : Params,
    (∀ r, (State.construct p).regs.get r = 0) ∧ (∀ a, (State.construct p).ram.read a = 0) ∧
    (State.construct p).stack = [] ∧ (State.construct p).pc = 0 ∧ (State.construct p).running = false ∧
    (State.construct p).halted = false ∧ (State.construct p).loadFailed = false ∧
    (State.construct p).elapsedTime = 0 ∧ (State.construct p).steps = 0 ∧ (State.construct p).fault = none ∧
    (State.construct p).program = [] ∧ (State.construct p).labels = [] ∧ (State.construct p).params = p ∧
    step (State.construct p) = .next { State.construct p with halted := true }

/-- R271, R272 (decision D5) and R273 (decision D13): what a load leaves, whether it succeeds or fails. -/
def Obligations.LoadResetsAllButRam : Prop :=
  ∀ (text : Text) (s t : State) (r : Return), loadText text s = (r, t) →
    (∀ x, t.regs.get x = 0) ∧ t.stack = [] ∧ t.pc = 0 ∧ t.running = false ∧ t.halted = false ∧
    t.elapsedTime = 0 ∧ t.steps = 0 ∧ t.fault = none ∧ t.ram = s.ram ∧ t.params = s.params ∧
    (∀ program labels, assemble text = .ok (program, labels) →
      r = .ok ∧ t.loadFailed = false ∧ t.program = program ∧ t.labels = labels) ∧
    (∀ e, assemble text = .error e →
      r = .loadErr e ∧ t.loadFailed = true ∧ t.program = [] ∧ t.labels = [])

/-- R40: the snapshot shows the six registers, the 256 words of RAM, the stack with its top last (and nothing below
its bottom), pc, the flags and the counters, and, by decision D24, the fault latch. -/
def Obligations.SnapshotShowsRamAndStack : Prop :=
  ∀ s : State, (snapshot s).ram.length = 256 ∧ (∀ a < 256, (snapshot s).ram[a]? = some (s.ram.read a)) ∧
    (s.stack = [] → (snapshot s).stack = []) ∧ (snapshot s).stack.length = s.stack.length ∧
    (∀ v, (snapshot (s.push v)).stack = (snapshot s).stack ++ [v]) ∧
    (∀ r, (snapshot s).regs.get r = s.regs.get r) ∧ (snapshot s).pc = s.pc ∧ (snapshot s).halted = s.halted ∧
    (snapshot s).running = s.running ∧ (snapshot s).elapsedTime = s.elapsedTime ∧
    (snapshot s).steps = s.steps ∧ (snapshot s).fault = s.fault

/-- R279: between steps the machine is in exactly one of the four conditions, and the next step does what the rule says
of it. -/
def Obligations.FourConditions : Prop :=
  ∀ s : State, Inv s → s.loadFailed = false →
    (IsRunning s ∨ IsAboutToStop s ∨ IsHalted s ∨ IsFaulted s) ∧
    ¬ (IsRunning s ∧ (IsAboutToStop s ∨ IsHalted s ∨ IsFaulted s)) ∧
    ¬ (IsAboutToStop s ∧ (IsHalted s ∨ IsFaulted s)) ∧ ¬ (IsHalted s ∧ IsFaulted s) ∧
    (IsRunning s → ∃ i ∈ s.program, step s = exec i s) ∧
    (IsAboutToStop s → step s = .next { s with halted := true }) ∧
    (IsHalted s ∨ IsFaulted s → step s = .next s)

/-- R121 (a): a budget that is zero or negative is no limit. -/
def Obligations.NonpositiveBudgetIsNoLimit : Prop :=
  ∀ (k : Int) (s t : State) (r : Return), k ≤ 0 → (RunEnds (some k) s r t ↔ RunEnds none s r t)

/-- A run has at most one return value and one final state, however far it is unrolled (assumption 10). -/
def Obligations.RunHasOneEnd : Prop :=
  ∀ (budget : Option Int) (s t u : State) (q r : Return),
    RunEnds budget s q t → RunEnds budget s r u → q = r ∧ t = u

/-- R120 and R279: a run with a positive budget always returns, with `steps` at most the larger of the budget and its
value at the call (the check before each step is decision D12). -/
def Obligations.PositiveBudgetAlwaysReturns : Prop :=
  ∀ (k : Int) (s : State), 0 < k → s.loadFailed = false →
    ∃ r t, RunEnds (some k) s r t ∧ t.steps ≤ max k s.steps ∧ (t.halted = true ∨ t.fault.isSome = true)

/-- R120, R121 (c), (d): a run that fails with StepLimitExceeded does so where `steps` has reached the budget, not
halted, with the budget and pc in the record, and every later run returns that record; conversely, a run whose positive
budget `steps` has reached on a machine that is not halted or faulted fails so at once, changing nothing but the latch
(decisions D11, D12). -/
def Obligations.StepLimitExactlyAtBudget : Prop :=
  (∀ (k : Int) (s t : State) (e : ExecError), s.fault = none → RunEnds (some k) s (.execErr e) t →
    e.kind = .stepLimitExceeded →
    0 < k ∧ t.steps = max k s.steps ∧ t.halted = false ∧ e.info = .budget k ∧ e.pc = t.pc ∧ t.fault = some e ∧
      ∀ (budget : Option Int) (r : Return) (u : State), RunEnds budget t r u → r = .execErr e ∧ u = t) ∧
  ∀ (k : Int) (s : State), Active s → 0 < k → k ≤ s.steps →
    ∃ e, RunEnds (some k) s (.execErr e) { s with fault := some e } ∧ e.kind = .stepLimitExceeded ∧
      ∀ (r : Return) (u : State), RunEnds (some k) s r u → r = .execErr e ∧ u = { s with fault := some e }

/-- R120, R121 (a): a `GOTO` to itself never returns without a budget, and with a positive one fails exactly when
`steps` reaches it (the worked example W10). -/
def Obligations.GotoSelfHangsWithoutBudget : Prop :=
  ∀ (s : State) (label : Token) (k : Nat), Active s → LabelsUnique s → s.pc = k →
    s.program[k]? = some (.goto label) → BindsTo s label k →
    RunHangs none s ∧
    ∀ budget : Int, 0 < budget → s.steps ≤ budget → ∃ e t, RunEnds (some budget) s (.execErr e) t ∧
      e.kind = .stepLimitExceeded ∧ t.steps = budget ∧ t.pc = k

/-! ### The invariant -/

/-- The invariant holds of every machine constructed with admissible parameters, the reset machine among them. -/
def Obligations.ConstructedMachineMeetsInvariant : Prop :=
  Inv State.reset ∧ ∀ p : Params, p.wf = true → Inv (State.construct p)

/-- Every step keeps the invariant. -/
def Obligations.StepKeepsInvariant : Prop := ∀ s t : State, Inv s → step s = .next t → Inv t

/-- Every load keeps the invariant, whether it succeeds or fails. -/
def Obligations.LoadKeepsInvariant : Prop := ∀ (text : Text) (s : State), Inv s → Inv (loadText text s).2

/-- Every run keeps the invariant, whatever its budget and wherever it is cut. -/
def Obligations.RunKeepsInvariant : Prop :=
  ∀ (budget : Option Int) (fuel : Nat) (s : State), Inv s → Inv (runFor budget fuel s).2
end

