-- ==== Sys2Proof/Laws/Bits.lean ====
section
/-!
SUPPORT. The bits of an integer as spec/00_scope.md R10 reads them, and what each logic operation does to them.
-/

namespace Sys2Proof.Machine

/-- A bit of a natural number. -/
theorem bitAt_ofNat (m n : Nat) : bitAt (Int.ofNat m) n = 1 ↔ m.testBit n = true := by
  have h : Int.fdiv (Int.ofNat m) (2 ^ n) = ((m / 2 ^ n : Nat) : Int) := by
    rw [Int.fdiv_eq_ediv_of_nonneg _ (by positivity)]
    simp
  rw [bitAt, h, Nat.testBit_eq_decide_div_mod_eq, decide_eq_true_eq]
  omega

/-- A bit of a negative integer is the complement of the bit of its complement. -/
theorem bitAt_negSucc (m n : Nat) : bitAt (Int.negSucc m) n = 1 ↔ m.testBit n = false := by
  have h : Int.fdiv (Int.negSucc m) (2 ^ n) = -((m / 2 ^ n : Nat) : Int) - 1 := by
    rw [Int.fdiv_eq_ediv_of_nonneg _ (by positivity), Int.negSucc_ediv _ (by positivity)]
    have : (m : Int).ediv (2 ^ n) = ((m / 2 ^ n : Nat) : Int) := by
      change (m : Int) / (2 ^ n) = _
      simp
    rw [this]
    ring
  rw [bitAt, h, Nat.testBit_eq_decide_div_mod_eq, decide_eq_false_iff_not]
  omega

/-- The complement, said on the two forms of an integer. -/
theorem bitNot_ofNat (m : Nat) : bitNot (Int.ofNat m) = Int.negSucc m := by
  simp only [bitNot, Int.negSucc_eq, Int.ofNat_eq_natCast]
  ring

/-- The complement, said on the two forms of an integer. -/
theorem bitNot_negSucc (m : Nat) : bitNot (Int.negSucc m) = Int.ofNat m := by
  simp only [bitNot, Int.negSucc_eq, Int.ofNat_eq_natCast]
  ring

/-- `~v` complements every bit (R10). -/
theorem bitAt_bitNot (v : Int) (n : Nat) : bitAt (bitNot v) n = 1 ↔ ¬ bitAt v n = 1 := by
  cases v with
  | ofNat m => rw [bitNot_ofNat, bitAt_negSucc, bitAt_ofNat, Bool.not_eq_true]
  | negSucc m => rw [bitNot_negSucc, bitAt_negSucc, bitAt_ofNat, Bool.not_eq_false]

/-- `a AND b` bit by bit (R10). -/
theorem bitAt_bitAnd (a b : Int) (n : Nat) : bitAt (bitAnd a b) n = 1 ↔ bitAt a n = 1 ∧ bitAt b n = 1 := by
  cases a <;> cases b <;> rename_i x y <;>
    simp only [bitAnd, bitAt_ofNat, bitAt_negSucc, Nat.testBit_and, Nat.testBit_or, Nat.testBit_xor] <;>
    cases x.testBit n <;> cases y.testBit n <;> simp

/-- `a OR b` bit by bit (R10). -/
theorem bitAt_bitOr (a b : Int) (n : Nat) : bitAt (bitOr a b) n = 1 ↔ bitAt a n = 1 ∨ bitAt b n = 1 := by
  rw [bitOr, bitAt_bitNot, bitAt_bitAnd, bitAt_bitNot, bitAt_bitNot]
  tauto

/-- `a XOR b` bit by bit (R10). -/
theorem bitAt_bitXor (a b : Int) (n : Nat) :
    bitAt (bitXor a b) n = 1 ↔ ¬ (bitAt a n = 1 ↔ bitAt b n = 1) := by
  cases a <;> cases b <;> rename_i x y <;>
    simp only [bitXor, bitAt_ofNat, bitAt_negSucc, Nat.testBit_xor] <;>
    cases x.testBit n <;> cases y.testBit n <;> simp

/-- NOT's result without bits (R203). -/
theorem notMasked_eq (v : Int) : notMasked v = 65535 - v % 65536 := by
  have mask (m : Nat) : m &&& 65535 = m % 65536 := Nat.and_two_pow_sub_one_eq_mod m 16
  cases v with
  | ofNat m =>
    have h : bitAnd (Int.negSucc m) (Int.ofNat 65535) = Int.ofNat (65535 ^^^ (65535 &&& m)) := rfl
    have hx : 65535 ^^^ (m % 65536) = 65535 - m % 65536 := by
      have hlt : m % 65536 < 2 ^ 16 := Nat.mod_lt _ (by decide)
      apply Nat.eq_of_testBit_eq
      intro i
      rw [show 65535 - m % 65536 = 2 ^ 16 - (m % 65536 + 1) by omega, Nat.testBit_two_pow_sub_succ hlt,
        Nat.testBit_xor, show (65535 : Nat) = 2 ^ 16 - 1 from rfl, Nat.testBit_two_pow_sub_one]
      by_cases hi : i < 16
      · simp [hi]
      · have := Nat.testBit_lt_two_pow (Nat.lt_of_lt_of_le hlt (Nat.pow_le_pow_right (by decide) (Nat.le_of_not_lt hi)))
        simp [hi, this]
    rw [notMasked, bitNot_ofNat, Config.notMask]
    change bitAnd (Int.negSucc m) (Int.ofNat 65535) = _
    rw [h, Nat.and_comm, mask, hx]
    simp only [Int.ofNat_eq_natCast]
    omega
  | negSucc m =>
    rw [notMasked, bitNot_negSucc, Config.notMask]
    change Int.ofNat (m &&& 65535) = _
    rw [mask]
    simp only [Int.ofNat_eq_natCast, Int.negSucc_eq]
    omega

end Sys2Proof.Machine
end

