-- ==== Sys2Proof/Laws/State.lean ====
section
/-!
SUPPORT. Beside State: one lemma per field per update, each true by rfl, so that no proof unfolds an update; and the
laws of the register file.
-/

namespace Sys2Proof.Machine

variable (s : State)

@[simp] theorem State.setReg_regs (r : RegId) (v : Int) : (s.setReg r v).regs = s.regs.set r v := rfl
@[simp] theorem State.setReg_pc (r : RegId) (v : Int) : (s.setReg r v).pc = s.pc := rfl
@[simp] theorem State.setReg_stack (r : RegId) (v : Int) : (s.setReg r v).stack = s.stack := rfl
@[simp] theorem State.setReg_running (r : RegId) (v : Int) : (s.setReg r v).running = s.running := rfl
@[simp] theorem State.setReg_halted (r : RegId) (v : Int) : (s.setReg r v).halted = s.halted := rfl
@[simp] theorem State.setReg_fault (r : RegId) (v : Int) : (s.setReg r v).fault = s.fault := rfl
@[simp] theorem State.setReg_loadFailed (r : RegId) (v : Int) : (s.setReg r v).loadFailed = s.loadFailed := rfl
@[simp] theorem State.setReg_elapsedTime (r : RegId) (v : Int) : (s.setReg r v).elapsedTime = s.elapsedTime := rfl
@[simp] theorem State.setReg_steps (r : RegId) (v : Int) : (s.setReg r v).steps = s.steps := rfl
@[simp] theorem State.setReg_program (r : RegId) (v : Int) : (s.setReg r v).program = s.program := rfl
@[simp] theorem State.setReg_labels (r : RegId) (v : Int) : (s.setReg r v).labels = s.labels := rfl
@[simp] theorem State.setReg_ram (r : RegId) (v : Int) : (s.setReg r v).ram = s.ram := rfl
@[simp] theorem State.setReg_params (r : RegId) (v : Int) : (s.setReg r v).params = s.params := rfl
@[simp] theorem State.setReg_io (r : RegId) (v : Int) : (s.setReg r v).io = s.io := rfl

@[simp] theorem State.setRam_regs (ea : Nat) (v : Int) : (s.setRam ea v).regs = s.regs := rfl
@[simp] theorem State.setRam_pc (ea : Nat) (v : Int) : (s.setRam ea v).pc = s.pc := rfl
@[simp] theorem State.setRam_stack (ea : Nat) (v : Int) : (s.setRam ea v).stack = s.stack := rfl
@[simp] theorem State.setRam_running (ea : Nat) (v : Int) : (s.setRam ea v).running = s.running := rfl
@[simp] theorem State.setRam_halted (ea : Nat) (v : Int) : (s.setRam ea v).halted = s.halted := rfl
@[simp] theorem State.setRam_fault (ea : Nat) (v : Int) : (s.setRam ea v).fault = s.fault := rfl
@[simp] theorem State.setRam_loadFailed (ea : Nat) (v : Int) : (s.setRam ea v).loadFailed = s.loadFailed := rfl
@[simp] theorem State.setRam_elapsedTime (ea : Nat) (v : Int) : (s.setRam ea v).elapsedTime = s.elapsedTime := rfl
@[simp] theorem State.setRam_steps (ea : Nat) (v : Int) : (s.setRam ea v).steps = s.steps := rfl
@[simp] theorem State.setRam_program (ea : Nat) (v : Int) : (s.setRam ea v).program = s.program := rfl
@[simp] theorem State.setRam_labels (ea : Nat) (v : Int) : (s.setRam ea v).labels = s.labels := rfl
@[simp] theorem State.setRam_ram (ea : Nat) (v : Int) : (s.setRam ea v).ram = s.ram.write ea v := rfl
@[simp] theorem State.setRam_params (ea : Nat) (v : Int) : (s.setRam ea v).params = s.params := rfl
@[simp] theorem State.setRam_io (ea : Nat) (v : Int) : (s.setRam ea v).io = s.io := rfl

@[simp] theorem State.push_regs (v : Int) : (s.push v).regs = s.regs := rfl
@[simp] theorem State.push_pc (v : Int) : (s.push v).pc = s.pc := rfl
@[simp] theorem State.push_stack (v : Int) : (s.push v).stack = v :: s.stack := rfl
@[simp] theorem State.push_running (v : Int) : (s.push v).running = s.running := rfl
@[simp] theorem State.push_halted (v : Int) : (s.push v).halted = s.halted := rfl
@[simp] theorem State.push_fault (v : Int) : (s.push v).fault = s.fault := rfl
@[simp] theorem State.push_loadFailed (v : Int) : (s.push v).loadFailed = s.loadFailed := rfl
@[simp] theorem State.push_elapsedTime (v : Int) : (s.push v).elapsedTime = s.elapsedTime := rfl
@[simp] theorem State.push_steps (v : Int) : (s.push v).steps = s.steps := rfl
@[simp] theorem State.push_program (v : Int) : (s.push v).program = s.program := rfl
@[simp] theorem State.push_labels (v : Int) : (s.push v).labels = s.labels := rfl
@[simp] theorem State.push_ram (v : Int) : (s.push v).ram = s.ram := rfl
@[simp] theorem State.push_params (v : Int) : (s.push v).params = s.params := rfl
@[simp] theorem State.push_io (v : Int) : (s.push v).io = s.io := rfl

@[simp] theorem takeError_regs (e : ExecError) : (takeError s e).regs = s.regs := rfl
@[simp] theorem takeError_pc (e : ExecError) : (takeError s e).pc = s.pc := rfl
@[simp] theorem takeError_stack (e : ExecError) : (takeError s e).stack = s.stack := rfl
@[simp] theorem takeError_running (e : ExecError) : (takeError s e).running = s.running := rfl
@[simp] theorem takeError_halted (e : ExecError) : (takeError s e).halted = s.halted := rfl
@[simp] theorem takeError_fault (e : ExecError) : (takeError s e).fault = some e := rfl
@[simp] theorem takeError_loadFailed (e : ExecError) : (takeError s e).loadFailed = s.loadFailed := rfl
@[simp] theorem takeError_elapsedTime (e : ExecError) : (takeError s e).elapsedTime = s.elapsedTime := rfl
@[simp] theorem takeError_steps (e : ExecError) : (takeError s e).steps = s.steps := rfl
@[simp] theorem takeError_program (e : ExecError) : (takeError s e).program = s.program := rfl
@[simp] theorem takeError_labels (e : ExecError) : (takeError s e).labels = s.labels := rfl
@[simp] theorem takeError_ram (e : ExecError) : (takeError s e).ram = s.ram := rfl
@[simp] theorem takeError_params (e : ExecError) : (takeError s e).params = s.params := rfl
@[simp] theorem takeError_io (e : ExecError) : (takeError s e).io = s.io := rfl

@[simp] theorem endStep_regs : (endStep s).regs = s.regs := rfl
@[simp] theorem endStep_pc : (endStep s).pc = s.pc := rfl
@[simp] theorem endStep_stack : (endStep s).stack = s.stack := rfl
@[simp] theorem endStep_running : (endStep s).running = s.running := rfl
@[simp] theorem endStep_halted : (endStep s).halted = s.halted := rfl
@[simp] theorem endStep_fault : (endStep s).fault = s.fault := rfl
@[simp] theorem endStep_loadFailed : (endStep s).loadFailed = s.loadFailed := rfl
@[simp] theorem endStep_elapsedTime : (endStep s).elapsedTime = if s.running then s.elapsedTime + 1 else s.elapsedTime := rfl
@[simp] theorem endStep_steps : (endStep s).steps = s.steps + 1 := rfl
@[simp] theorem endStep_program : (endStep s).program = s.program := rfl
@[simp] theorem endStep_labels : (endStep s).labels = s.labels := rfl
@[simp] theorem endStep_ram : (endStep s).ram = s.ram := rfl
@[simp] theorem endStep_params : (endStep s).params = s.params := rfl
@[simp] theorem endStep_io : (endStep s).io = s.io := rfl

@[simp] theorem emitStatus_regs : (emitStatus s).regs = s.regs := rfl
@[simp] theorem emitStatus_pc : (emitStatus s).pc = s.pc := rfl
@[simp] theorem emitStatus_stack : (emitStatus s).stack = s.stack := rfl
@[simp] theorem emitStatus_running : (emitStatus s).running = s.running := rfl
@[simp] theorem emitStatus_halted : (emitStatus s).halted = s.halted := rfl
@[simp] theorem emitStatus_fault : (emitStatus s).fault = s.fault := rfl
@[simp] theorem emitStatus_loadFailed : (emitStatus s).loadFailed = s.loadFailed := rfl
@[simp] theorem emitStatus_elapsedTime : (emitStatus s).elapsedTime = s.elapsedTime := rfl
@[simp] theorem emitStatus_steps : (emitStatus s).steps = s.steps := rfl
@[simp] theorem emitStatus_program : (emitStatus s).program = s.program := rfl
@[simp] theorem emitStatus_labels : (emitStatus s).labels = s.labels := rfl
@[simp] theorem emitStatus_ram : (emitStatus s).ram = s.ram := rfl
@[simp] theorem emitStatus_params : (emitStatus s).params = s.params := rfl
@[simp] theorem emitStatus_io : (emitStatus s).io = { s.io with statusEvents := s.io.statusEvents + 1 } := rfl

@[simp] theorem cleared_regs : (cleared s).regs = Regs.zero := rfl
@[simp] theorem cleared_pc : (cleared s).pc = 0 := rfl
@[simp] theorem cleared_stack : (cleared s).stack = [] := rfl
@[simp] theorem cleared_running : (cleared s).running = false := rfl
@[simp] theorem cleared_halted : (cleared s).halted = false := rfl
@[simp] theorem cleared_fault : (cleared s).fault = none := rfl
@[simp] theorem cleared_loadFailed : (cleared s).loadFailed = s.loadFailed := rfl
@[simp] theorem cleared_elapsedTime : (cleared s).elapsedTime = 0 := rfl
@[simp] theorem cleared_steps : (cleared s).steps = 0 := rfl
@[simp] theorem cleared_program : (cleared s).program = [] := rfl
@[simp] theorem cleared_labels : (cleared s).labels = [] := rfl
@[simp] theorem cleared_ram : (cleared s).ram = s.ram := rfl
@[simp] theorem cleared_params : (cleared s).params = s.params := rfl
@[simp] theorem cleared_io : (cleared s).io = s.io := rfl

@[simp] theorem stepped_regs (pc : Int) : (stepped s pc).regs = s.regs := rfl
@[simp] theorem stepped_pc (pc : Int) : (stepped s pc).pc = pc := rfl
@[simp] theorem stepped_stack (pc : Int) : (stepped s pc).stack = s.stack := rfl
@[simp] theorem stepped_running (pc : Int) : (stepped s pc).running = s.running := rfl
@[simp] theorem stepped_halted (pc : Int) : (stepped s pc).halted = s.halted := rfl
@[simp] theorem stepped_fault (pc : Int) : (stepped s pc).fault = s.fault := rfl
@[simp] theorem stepped_loadFailed (pc : Int) : (stepped s pc).loadFailed = s.loadFailed := rfl
@[simp] theorem stepped_elapsedTime (pc : Int) : (stepped s pc).elapsedTime = s.elapsedTime + (if s.running then 1 else 0) := rfl
@[simp] theorem stepped_steps (pc : Int) : (stepped s pc).steps = s.steps + 1 := rfl
@[simp] theorem stepped_program (pc : Int) : (stepped s pc).program = s.program := rfl
@[simp] theorem stepped_labels (pc : Int) : (stepped s pc).labels = s.labels := rfl
@[simp] theorem stepped_ram (pc : Int) : (stepped s pc).ram = s.ram := rfl
@[simp] theorem stepped_params (pc : Int) : (stepped s pc).params = s.params := rfl
@[simp] theorem stepped_io (pc : Int) : (stepped s pc).io = s.io := rfl

@[simp] theorem faulted_regs (i : Instr) (k : ErrKind) (info : ErrInfo) : (faulted s i k info).regs = s.regs := rfl
@[simp] theorem faulted_pc (i : Instr) (k : ErrKind) (info : ErrInfo) : (faulted s i k info).pc = s.pc := rfl
@[simp] theorem faulted_stack (i : Instr) (k : ErrKind) (info : ErrInfo) : (faulted s i k info).stack = s.stack := rfl
@[simp] theorem faulted_running (i : Instr) (k : ErrKind) (info : ErrInfo) : (faulted s i k info).running = s.running := rfl
@[simp] theorem faulted_halted (i : Instr) (k : ErrKind) (info : ErrInfo) : (faulted s i k info).halted = s.halted := rfl
@[simp] theorem faulted_fault (i : Instr) (k : ErrKind) (info : ErrInfo) : (faulted s i k info).fault = some ⟨k, info, some i.opcode, some i.operands, s.pc⟩ := rfl
@[simp] theorem faulted_loadFailed (i : Instr) (k : ErrKind) (info : ErrInfo) : (faulted s i k info).loadFailed = s.loadFailed := rfl
@[simp] theorem faulted_elapsedTime (i : Instr) (k : ErrKind) (info : ErrInfo) : (faulted s i k info).elapsedTime = s.elapsedTime := rfl
@[simp] theorem faulted_steps (i : Instr) (k : ErrKind) (info : ErrInfo) : (faulted s i k info).steps = s.steps := rfl
@[simp] theorem faulted_program (i : Instr) (k : ErrKind) (info : ErrInfo) : (faulted s i k info).program = s.program := rfl
@[simp] theorem faulted_labels (i : Instr) (k : ErrKind) (info : ErrInfo) : (faulted s i k info).labels = s.labels := rfl
@[simp] theorem faulted_ram (i : Instr) (k : ErrKind) (info : ErrInfo) : (faulted s i k info).ram = s.ram := rfl
@[simp] theorem faulted_params (i : Instr) (k : ErrKind) (info : ErrInfo) : (faulted s i k info).params = s.params := rfl
@[simp] theorem faulted_io (i : Instr) (k : ErrKind) (info : ErrInfo) : (faulted s i k info).io = s.io := rfl

/-- What was written to a register is read from it, and every other register reads as before. -/
theorem Regs.get_set (x : Regs) (r q : RegId) (v : Int) :
    (x.set r v).get q = if q = r then v else x.get q := by
  cases r <;> cases q <;> rfl

@[simp] theorem Regs.get_set_same (x : Regs) (r : RegId) (v : Int) : (x.set r v).get r = v := by
  simp [Regs.get_set]

@[simp] theorem Regs.get_zero (r : RegId) : Regs.zero.get r = 0 := by
  cases r <;> rfl

/-- Every register is in the list of all six. -/
@[simp] theorem RegId.mem_all (r : RegId) : r ∈ RegId.all := by
  cases r <;> decide

/-- Every sensor is in the list of all six. -/
@[simp] theorem SensorId.mem_all (k : SensorId) : k ∈ SensorId.all := by
  cases k with
  | ext k => cases k <;> decide
  | _ => decide

/-- The end of a step, said with the addition outside. -/
theorem endStep_eq_stepped (pc : Int) : endStep { s with pc := pc } = stepped s pc := by
  cases h : s.running <;> simp [endStep, stepped, h]

end Sys2Proof.Machine
end

