-- ==== Sys2Proof/Laws/Operands.lean ====
section
/-!
SUPPORT. Each operand primitive in the terms of Safety.lean: what it answers for a token that names something, and
what it raises for one that does not.
-/

namespace Sys2Proof.Machine

/-- The spellings in the order of the six registers. -/
theorem RegNames.list_eq (n : RegNames) : n.list = RegId.all.map (regName n) := rfl

/-- The spellings in the order of the six sensors. -/
theorem SensorNames.list_eq (n : SensorNames) : n.list = SensorId.all.map (sensorName n) := rfl

/-- REG_NAME is injective (R7). -/
theorem regName_injective {n : RegNames} (h : n.wf = true) : Function.Injective (regName n) := by
  have hd : n.list.Nodup := by
    simp only [RegNames.wf, Bool.and_eq_true, decide_eq_true_eq] at h
    exact h.1
  rw [RegNames.list_eq] at hd
  intro q r hqr
  exact List.inj_on_of_nodup_map hd (RegId.mem_all q) (RegId.mem_all r) hqr

/-- SENSOR_NAME is injective (D3). -/
theorem sensorName_injective {n : SensorNames} (h : n.wf = true) : Function.Injective (sensorName n) := by
  have hd : n.list.Nodup := by
    simp only [SensorNames.wf, Bool.and_eq_true, decide_eq_true_eq] at h
    exact h.1
  rw [SensorNames.list_eq] at hd
  intro j k hjk
  exact List.inj_on_of_nodup_map hd (SensorId.mem_all j) (SensorId.mem_all k) hjk

/-- The parts of admissible parameters. -/
theorem Params.wf_regNames {p : Params} (h : p.wf = true) : p.regNames.wf = true := by
  simp only [Params.wf, Bool.and_eq_true] at h
  exact h.1.1.1.1

/-- The parts of admissible parameters. -/
theorem Params.wf_sensorNames {p : Params} (h : p.wf = true) : p.sensorNames.wf = true := by
  simp only [Params.wf, Bool.and_eq_true] at h
  exact h.1.1.1.2

/-- The parts of admissible parameters. -/
theorem Params.wf_source {p : Params} (h : p.wf = true) (k : ExtId) : (sourceOf p k).wf = true := by
  simp only [Params.wf, Bool.and_eq_true] at h
  cases k
  · exact h.1.1.2
  · exact h.1.2
  · exact h.2

/-- A register found is one the token names. -/
theorem regName_of_findReg {n : RegNames} {t : Token} {r : RegId} (h : findReg n t = some r) : t = regName n r := by
  have := List.find?_some h
  exact (beq_iff_eq.mp this).symm

/-- No register is found exactly where the token names none. -/
theorem findReg_eq_none_iff {n : RegNames} {t : Token} :
    findReg n t = none ↔ ∀ r ∈ RegId.all, t ≠ regName n r := by
  simp only [findReg, List.find?_eq_none, RegId.all, beq_iff_eq]
  constructor <;> intro h r hr he <;> exact h r hr he.symm

/-- The register a token names is found. -/
theorem findReg_regName {n : RegNames} (h : n.wf = true) (r : RegId) : findReg n (regName n r) = some r := by
  cases hf : findReg n (regName n r) with
  | none => exact absurd rfl (findReg_eq_none_iff.mp hf r (RegId.mem_all r))
  | some q => rw [regName_injective h (regName_of_findReg hf)]

/-- A sensor found is one the token names. -/
theorem sensorName_of_findSensor {n : SensorNames} {t : Token} {k : SensorId} (h : findSensor n t = some k) :
    lowerText t = sensorName n k := by
  have := List.find?_some h
  exact (beq_iff_eq.mp this).symm

/-- No sensor is found exactly where the token names none. -/
theorem findSensor_eq_none_iff {n : SensorNames} {t : Token} :
    findSensor n t = none ↔ ∀ k ∈ SensorId.all, lowerText t ≠ sensorName n k := by
  simp only [findSensor, List.find?_eq_none, SensorId.all, beq_iff_eq]
  constructor <;> intro h k hk he <;> exact h k hk he.symm

/-- The sensor a token names is found. -/
theorem findSensor_of_name {n : SensorNames} (h : n.wf = true) {t : Token} {k : SensorId}
    (hk : lowerText t = sensorName n k) : findSensor n t = some k := by
  cases hf : findSensor n t with
  | none => exact absurd hk (findSensor_eq_none_iff.mp hf k (SensorId.mem_all k))
  | some q => rw [sensorName_injective h ((sensorName_of_findSensor hf).symm.trans hk)]

/-- A name bound in a table of unique names is looked up. -/
theorem lookupLabel_of_mem {table : LabelTable} (h : (table.map Prod.fst).Nodup) {t : Text} {k : Nat}
    (hk : (t, k) ∈ table) : lookupLabel table t = some k := by
  induction table with
  | nil => cases hk
  | cons c table ih =>
    obtain ⟨n, j⟩ := c
    have hn := List.nodup_cons.mp h
    rcases List.mem_cons.mp hk with he | hm
    · cases he
      simp [lookupLabel]
    · have hne : n ≠ t := by
        rintro rfl
        exact hn.1 (List.mem_map.mpr ⟨_, hm, rfl⟩)
      simp [lookupLabel, hne, ih hn.2 hm]

/-- A name that is looked up is bound. -/
theorem mem_of_lookupLabel {table : LabelTable} {t : Text} {k : Nat} (h : lookupLabel table t = some k) :
    (t, k) ∈ table := by
  induction table with
  | nil => cases h
  | cons c table ih =>
    obtain ⟨n, j⟩ := c
    simp only [lookupLabel, beq_iff_eq] at h
    split at h
    · rename_i he
      cases h
      simp [he]
    · exact List.mem_cons_of_mem _ (ih h)

/-- No index is found exactly where the table has no such name. -/
theorem lookupLabel_eq_none_iff {table : LabelTable} {t : Text} :
    lookupLabel table t = none ↔ t ∉ table.map Prod.fst := by
  induction table with
  | nil => simp [lookupLabel]
  | cons c table ih =>
    obtain ⟨n, j⟩ := c
    simp only [lookupLabel, beq_iff_eq, List.map_cons, List.mem_cons, not_or]
    split
    · rename_i he
      simp [he]
    · rename_i he
      rw [ih]
      exact ⟨fun h => ⟨fun e => he e.symm, h⟩, fun h => h.2⟩

section
variable {s : State} {t : Token}

/-- Dst of a register name (R111). -/
theorem dst_of_isReg (h : s.params.wf = true) {r : RegId} (hr : IsReg s t r) : dst s t = .ok r := by
  simp only [IsReg] at hr
  simp [dst, hr, findReg_regName (Params.wf_regNames h)]

/-- Dst of anything else (R111). -/
theorem dst_of_noReg (h : NoReg s t) : dst s t = .error ⟨.invalidRegister, .token t⟩ := by
  simp [dst, findReg_eq_none_iff.mpr h]

/-- Dst answers a register the token names, or raises InvalidRegister. -/
theorem dst_cases (s : State) (t : Token) :
    (∃ r, dst s t = .ok r ∧ IsReg s t r) ∨ (dst s t = .error ⟨.invalidRegister, .token t⟩ ∧ NoReg s t) := by
  cases hf : findReg s.params.regNames t with
  | none => exact .inr ⟨by simp [dst, hf], findReg_eq_none_iff.mp hf⟩
  | some r => exact .inl ⟨r, by simp [dst, hf], regName_of_findReg hf⟩

/-- Resolve of an operand that reads as `v` (R110). -/
theorem resolve_of_reads (h : s.params.wf = true) {v : Int} (hv : Reads s t v) : resolve s t = .ok v := by
  rcases hv with ⟨r, -, hr, rfl⟩ | ⟨hn, hl⟩
  · simp only [IsReg] at hr
    simp [resolve, classVal, hr, findReg_regName (Params.wf_regNames h)]
  · simp [resolve, classVal, findReg_eq_none_iff.mpr hn, hl]

/-- Resolve of an operand that does not read (R110). -/
theorem resolve_of_unreadable (h : Unreadable s t) : resolve s t = .error ⟨.invalidOperand, .token t⟩ := by
  simp [resolve, classVal, findReg_eq_none_iff.mpr h.1, h.2]

/-- Resolve answers what the operand reads as, or raises InvalidOperand. -/
theorem resolve_cases (s : State) (t : Token) :
    (∃ v, resolve s t = .ok v ∧ Reads s t v) ∨
      (resolve s t = .error ⟨.invalidOperand, .token t⟩ ∧ Unreadable s t) := by
  cases hf : findReg s.params.regNames t with
  | some r =>
    exact .inl ⟨s.regs.get r, by simp [resolve, classVal, hf],
      .inl ⟨r, RegId.mem_all r, regName_of_findReg hf, rfl⟩⟩
  | none =>
    have hn := findReg_eq_none_iff.mp hf
    cases hl : literalValue t with
    | some v => exact .inl ⟨v, by simp [resolve, classVal, hf, hl], .inr ⟨hn, hl⟩⟩
    | none => exact .inr ⟨by simp [resolve, classVal, hf, hl], hn, hl⟩

/-- Target of a label (R112). -/
theorem target_of_bindsTo (h : LabelsUnique s) {k : Nat} (hk : BindsTo s t k) : target s t = .ok (k : Int) := by
  simp [target, lookupLabel_of_mem h hk]

/-- Target of a name that is no label (R112). -/
theorem target_of_noLabel (h : NoLabel s t) : target s t = .error ⟨.unresolvedLabel, .token t⟩ := by
  simp [target, lookupLabel_eq_none_iff.mpr h]

/-- Target answers the label's index, or raises UnresolvedLabel. -/
theorem target_cases (s : State) (t : Token) :
    (∃ k : Nat, target s t = .ok (k : Int) ∧ BindsTo s t k) ∨
      (target s t = .error ⟨.unresolvedLabel, .token t⟩ ∧ NoLabel s t) := by
  cases hf : lookupLabel s.labels t with
  | none => exact .inr ⟨by simp [target, hf], lookupLabel_eq_none_iff.mp hf⟩
  | some k => exact .inl ⟨k, by simp [target, hf], mem_of_lookupLabel hf⟩

/-- SensorOf of a sensor's name in any letter case (R113, R222). -/
theorem sensorOf_of_namesSensor (h : s.params.wf = true) {k : SensorId} (hk : NamesSensor s t k) :
    sensorOf s t = .ok k := by
  simp [sensorOf, findSensor_of_name (Params.wf_sensorNames h) hk]

/-- SensorOf of anything else (R113). -/
theorem sensorOf_of_noSensor (h : NoSensor s t) : sensorOf s t = .error ⟨.unknownSensor, .token t⟩ := by
  simp [sensorOf, findSensor_eq_none_iff.mpr h]

/-- SensorOf answers a sensor the token names, or raises UnknownSensor. -/
theorem sensorOf_cases (s : State) (t : Token) :
    (∃ k, sensorOf s t = .ok k ∧ NamesSensor s t k) ∨
      (sensorOf s t = .error ⟨.unknownSensor, .token t⟩ ∧ NoSensor s t) := by
  cases hf : findSensor s.params.sensorNames t with
  | none => exact .inr ⟨by simp [sensorOf, hf], findSensor_eq_none_iff.mp hf⟩
  | some k => exact .inl ⟨k, by simp [sensorOf, hf], sensorName_of_findSensor hf⟩

end

/-- One draw leaves all but the host's side as it was, and one more draw of that source there (R223). -/
theorem drawExt_state (s : State) (k : ExtId) : (drawExt s k).2 = { s with io := oneMoreDraw s.io k } := by
  cases k <;> rfl

/-- The value drawn is that of the sensor's own source at its own draw number (R221). -/
theorem drawExt_value (s : State) (k : ExtId) :
    ∃ sensor, (drawExt s k).1 = sourceValue (sourceOf s.params k) sensor (drawnOf s.io k) := by
  cases k
  · exact ⟨1, rfl⟩
  · exact ⟨2, rfl⟩
  · exact ⟨3, rfl⟩

/-- Reading a sensor changes nothing but, for an external one, the host's side. -/
theorem sensorValue_state (s : State) (k : SensorId) :
    (sensorValue s k).2 = s ∨ ∃ e, k = .ext e ∧ (sensorValue s k).2 = { s with io := oneMoreDraw s.io e } := by
  cases k with
  | ext e => exact .inr ⟨e, rfl, drawExt_state s e⟩
  | _ => exact .inl rfl

end Sys2Proof.Machine
end

