-- ==== Sys2Proof/Laws/Conclude.lean ====
section
/-!
SUPPORT. What the loop makes of an instruction's rule, and the shapes the instructions share: one lemma each.
-/

namespace Sys2Proof.Machine

/-- A rule that raises takes the error and changes nothing else (R117). -/
@[simp] theorem conclude_error (i : Instr) (s : State) (k : ErrKind) (info : ErrInfo) :
    conclude i s (.error ⟨k, info⟩) = .next (faulted s i k info) := rfl

/-- A rule that writes no pc ends its step one instruction further (R115, R116). -/
@[simp] theorem conclude_advance (i : Instr) (s s' : State) :
    conclude i s (.ok (Done.advance s')) = .next (stepped s' (s.pc + 1)) :=
  congrArg _ (endStep_eq_stepped s' (s.pc + 1))

/-- A rule that writes pc ends its step there (R115, R116). -/
@[simp] theorem conclude_jump (i : Instr) (s s' : State) (t : Int) :
    conclude i s (.ok (Done.jump s' t)) = .next (stepped s' t) :=
  congrArg _ (endStep_eq_stepped s' t)

/-- What a rule's conclusion can be: an error taken, or the rule's writes with a pc and the counters. -/
theorem conclude_cases (i : Instr) (s : State) (body : Except Raised Done) :
    (∃ e : Raised, body = .error e ∧ conclude i s body = .next (faulted s i e.kind e.info)) ∨
      ∃ d : Done, body = .ok d ∧ conclude i s body = .next (stepped d.state (d.target.getD (s.pc + 1))) := by
  cases body with
  | error e => exact .inl ⟨e, rfl, rfl⟩
  | ok d => exact .inr ⟨d, rfl, congrArg _ (endStep_eq_stepped d.state _)⟩

section
variable {i : Instr} {s : State} {reg value label : Token}

/-- `x[r] <- f(x[r])` with a register named. -/
theorem unaryOp_of_isReg (h : s.params.wf = true) {r : RegId} (hr : IsReg s reg r) (f : Int → Int) :
    unaryOp i f reg s = .next (stepped { s with regs := s.regs.set r (f (s.regs.get r)) } (s.pc + 1)) := by
  simp [unaryOp, dst_of_isReg h hr, State.setReg, bind, Except.bind, pure, Except.pure]

/-- `x[r] <- f(x[r])` with no register named. -/
theorem unaryOp_of_noReg (h : NoReg s reg) (f : Int → Int) :
    unaryOp i f reg s = .next (faulted s i .invalidRegister (.token reg)) := by
  simp [unaryOp, dst_of_noReg h, bind, Except.bind]

/-- `x[r] <- f(x[r], v)` with a register named and a value read. -/
theorem binaryOp_of_reads (h : s.params.wf = true) {r : RegId} (hr : IsReg s reg r) {v : Int}
    (hv : Reads s value v) (f : Int → Int → Int) :
    binaryOp i f reg value s =
      .next (stepped { s with regs := s.regs.set r (f (s.regs.get r) v) } (s.pc + 1)) := by
  simp [binaryOp, dst_of_isReg h hr, resolve_of_reads h hv, State.setReg, bind, Except.bind, pure, Except.pure]

/-- `x[r] <- f(x[r], v)` with no register named. -/
theorem binaryOp_of_noReg (h : NoReg s reg) (f : Int → Int → Int) :
    binaryOp i f reg value s = .next (faulted s i .invalidRegister (.token reg)) := by
  simp [binaryOp, dst_of_noReg h, bind, Except.bind]

/-- `x[r] <- f(x[r], v)` with a register named and no value read. -/
theorem binaryOp_of_unreadable (h : s.params.wf = true) {r : RegId} (hr : IsReg s reg r)
    (hv : Unreadable s value) (f : Int → Int → Int) :
    binaryOp i f reg value s = .next (faulted s i .invalidOperand (.token value)) := by
  simp [binaryOp, dst_of_isReg h hr, resolve_of_unreadable hv, bind, Except.bind]

/-- A conditional jump to a label. -/
theorem jumpIf_of_bindsTo (h : LabelsUnique s) {k : Nat} (hk : BindsTo s label k) (taken : Bool) :
    jumpIf i label taken s = .next (stepped s (if taken then (k : Int) else s.pc + 1)) := by
  cases taken <;> simp [jumpIf, target_of_bindsTo h hk, bind, Except.bind, pure, Except.pure]

/-- A conditional jump to a name that is no label. -/
theorem jumpIf_of_noLabel (h : NoLabel s label) (taken : Bool) :
    jumpIf i label taken s = .next (faulted s i .unresolvedLabel (.token label)) := by
  simp [jumpIf, target_of_noLabel h, bind, Except.bind]

end

end Sys2Proof.Machine
end

