-- ==== Sys2Proof/Laws/Opcodes.lean ====
section
/-!
SUPPORT. The opcode tables read backwards: a number and a mnemonic name their opcode, and an instruction is its opcode
with as many tokens as its arity.
-/

namespace Sys2Proof

/-- The table lists every opcode. -/
theorem Opcode.mem_all (op : Opcode) : op ∈ Opcode.all := by
  cases op <;> decide

/-- An opcode's number names it (R82). -/
theorem Opcode.ofCode_code (op : Opcode) : Opcode.ofCode op.code = some op := by
  cases op <;> decide

/-- An opcode's number fits its 5-bit field (R82). -/
theorem Opcode.code_lt (op : Opcode) : op.code < 29 := by
  cases op <;> decide

/-- An opcode's mnemonic names it (R75). -/
theorem Opcode.ofMnemonic_mnemonic (op : Opcode) : Opcode.ofMnemonic op.mnemonic = some op := by
  cases op <;> decide

/-- The opcode a token names has that token as its mnemonic (R75). -/
theorem Opcode.mnemonic_of_ofMnemonic {t : Token} {op : Opcode} (h : Opcode.ofMnemonic t = some op) :
    op.mnemonic = t := by
  have h' := List.find?_some (p := fun o : Opcode => o.mnemonic == t) h
  exact beq_iff_eq.mp h'

/-- A token names no opcode exactly where it is no opcode's mnemonic (R75). -/
theorem Opcode.ofMnemonic_eq_none_iff {t : Token} : Opcode.ofMnemonic t = none ↔ ∀ op, t ≠ Opcode.mnemonic op := by
  simp only [Opcode.ofMnemonic, List.find?_eq_none, beq_iff_eq]
  exact ⟨fun h op he => h op op.mem_all he.symm, fun h op _ he => h op he.symm⟩

/-- A number that names an opcode is its number (R82). -/
theorem Opcode.code_of_ofCode {n : Nat} {op : Opcode} (h : Opcode.ofCode n = some op) : op.code = n := by
  have h' := List.find?_some (p := fun o : Opcode => o.code == n) h
  exact beq_iff_eq.mp h'

/-- An instruction has its opcode's operand count (R78, R80). -/
theorem Instr.operands_length (i : Instr) : i.operands.length = i.opcode.arity := by
  cases i <;> rfl

/-- An instruction is what its opcode and operands make (R80). -/
theorem Instr.build_opcode_operands (i : Instr) : i.opcode.build i.operands = some i := by
  cases i <;> rfl

/-- As many tokens as the arity make an instruction of that opcode with those operands (R78, R80). -/
theorem Opcode.build_of_length {op : Opcode} {ts : List Token} (h : ts.length = op.arity) :
    ∃ i, op.build ts = some i ∧ i.opcode = op ∧ i.operands = ts := by
  match ts, h with
  | [], h => cases op <;> first | exact ⟨_, rfl, rfl, rfl⟩ | cases h
  | [p], h => cases op <;> first | exact ⟨_, rfl, rfl, rfl⟩ | cases h
  | [p, q], h => cases op <;> first | exact ⟨_, rfl, rfl, rfl⟩ | cases h
  | p :: q :: r :: ts, h => cases op <;> cases h

/-- Another count makes none (R78). -/
theorem Opcode.build_eq_none {op : Opcode} {ts : List Token} (h : ts.length ≠ op.arity) : op.build ts = none := by
  match ts, h with
  | [], h => cases op <;> first | rfl | exact absurd rfl h
  | [p], h => cases op <;> first | rfl | exact absurd rfl h
  | [p, q], h => cases op <;> first | rfl | exact absurd rfl h
  | p :: q :: r :: ts, h => cases op <;> rfl

/-- What an opcode and tokens make has that opcode and those operands (R80). -/
theorem Opcode.opcode_operands_of_build {op : Opcode} {ts : List Token} {i : Instr} (h : op.build ts = some i) :
    i.opcode = op ∧ i.operands = ts := by
  by_cases hl : ts.length = op.arity
  · obtain ⟨j, hj, ho, hs⟩ := Opcode.build_of_length hl
    rw [hj] at h
    cases h
    exact ⟨ho, hs⟩
  · rw [Opcode.build_eq_none hl] at h
    cases h

end Sys2Proof
end

