-- ==== Sys2Proof/Laws/Exec.lean ====
section
/-!
SUPPORT. The inversion lemma of exec: everything an instruction can do, said once. It latches an error, or its operands
name what they must and its effect is the one listed here for it.
-/

namespace Sys2Proof.Machine

/-- The state after an instruction that writes one register. -/
abbrev wrote (s : State) (r : RegId) (v : Int) : State := stepped { s with regs := s.regs.set r v } (s.pc + 1)

/-- The effect of an instruction that completes, in the terms of Safety.lean. -/
def Effect (s t : State) : Instr → Prop
  | .iniciar => t = stepped { s with running := true } (s.pc + 1)
  | .parar => t = stepped { s with running := false } (s.pc + 1)
  | .status => t = stepped (emitStatus s) (s.pc + 1)
  | .halt => t = stepped { s with running := false, halted := true } (s.pc + 1)
  | .ret => ∃ v rest, s.stack = v :: rest ∧ t = stepped { s with stack := rest } v
  | .inc reg => ∃ r, IsReg s reg r ∧ t = wrote s r (s.regs.get r + 1)
  | .dec reg => ∃ r, IsReg s reg r ∧ t = wrote s r (decClamped (s.regs.get r))
  | .goto label => ∃ k : Nat, BindsTo s label k ∧ t = stepped s k
  | .call label => ∃ k : Nat, BindsTo s label k ∧ t = stepped { s with stack := (s.pc + 1) :: s.stack } k
  | .push value => ∃ v, Reads s value v ∧ t = stepped { s with stack := v :: s.stack } (s.pc + 1)
  | .pop reg => ∃ r v rest, IsReg s reg r ∧ s.stack = v :: rest ∧
      t = stepped { s with regs := s.regs.set r v, stack := rest } (s.pc + 1)
  | .jz label => ∃ k : Nat, BindsTo s label k ∧ t = stepped s (if accZero s then (k : Int) else s.pc + 1)
  | .jnz label => ∃ k : Nat, BindsTo s label k ∧ t = stepped s (if accNonzero s then (k : Int) else s.pc + 1)
  | .jl label => ∃ k : Nat, BindsTo s label k ∧ t = stepped s (if accLess s then (k : Int) else s.pc + 1)
  | .jg label => ∃ k : Nat, BindsTo s label k ∧ t = stepped s (if accGreater s then (k : Int) else s.pc + 1)
  | .not reg => ∃ r, IsReg s reg r ∧ t = wrote s r (notMasked (s.regs.get r))
  | .set reg value => ∃ r v, IsReg s reg r ∧ Reads s value v ∧ t = wrote s r v
  | .add reg value => ∃ r v, IsReg s reg r ∧ Reads s value v ∧ t = wrote s r (s.regs.get r + v)
  | .sub reg value => ∃ r v, IsReg s reg r ∧ Reads s value v ∧ t = wrote s r (s.regs.get r - v)
  | .mul reg value => ∃ r v, IsReg s reg r ∧ Reads s value v ∧ t = wrote s r (s.regs.get r * v)
  | .div reg value => ∃ r d, IsReg s reg r ∧ Reads s value d ∧ d ≠ 0 ∧ t = wrote s r (floorDiv (s.regs.get r) d)
  | .decjz reg label => ∃ (r : RegId) (k : Nat), IsReg s reg r ∧ BindsTo s label k ∧
      t = if s.regs.get r = 0 then stepped s k else wrote s r (s.regs.get r - 1)
  | .load reg addr => ∃ r a, IsReg s reg r ∧ Reads s addr a ∧ t = wrote s r (s.ram.read (effectiveAddress a))
  | .store value addr => ∃ v a, Reads s value v ∧ Reads s addr a ∧
      t = stepped { s with ram := s.ram.write (effectiveAddress a) v } (s.pc + 1)
  | .cmp left right => ∃ u w, Reads s left u ∧ Reads s right w ∧ t = wrote s .acc (cmpResult u w)
  | .and reg value => ∃ r v, IsReg s reg r ∧ Reads s value v ∧ t = wrote s r (bitAnd (s.regs.get r) v)
  | .or reg value => ∃ r v, IsReg s reg r ∧ Reads s value v ∧ t = wrote s r (bitOr (s.regs.get r) v)
  | .xor reg value => ∃ r v, IsReg s reg r ∧ Reads s value v ∧ t = wrote s r (bitXor (s.regs.get r) v)
  | .readsensor reg name => ∃ r k, IsReg s reg r ∧ NamesSensor s name k ∧
      t = stepped { (sensorValue s k).2 with regs := s.regs.set r (sensorValue s k).1 } (s.pc + 1)

/-- An instruction that raised: the latch holds its record, whose `info` is one of its operands or nothing, and nothing
else has changed. -/
def Latches (s t : State) (i : Instr) : Prop :=
  ∃ k info, k ≠ ErrKind.stepLimitExceeded ∧ (info = .none ∨ ∃ tok ∈ i.operands, info = .token tok) ∧
    t = faulted s i k info

section
variable {i : Instr} {s t : State}

theorem unaryOp_cases {reg : Token} {f : Int → Int} (hr : reg ∈ i.operands) (h : unaryOp i f reg s = .next t) :
    Latches s t i ∨ ∃ r, IsReg s reg r ∧ t = wrote s r (f (s.regs.get r)) := by
  rcases dst_cases s reg with ⟨r, hd, hr⟩ | ⟨hd, -⟩
  · simp only [unaryOp, hd, bind, Except.bind, pure, Except.pure, conclude_advance] at h
    cases h
    exact .inr ⟨r, hr, rfl⟩
  · simp only [unaryOp, hd, bind, Except.bind, conclude_error] at h
    cases h
    exact .inl ⟨_, _, by decide, .inr ⟨_, ‹_›, rfl⟩, rfl⟩

theorem binaryOp_cases {reg value : Token} {f : Int → Int → Int} (hr : reg ∈ i.operands)
    (hv : value ∈ i.operands) (h : binaryOp i f reg value s = .next t) :
    Latches s t i ∨ ∃ r v, IsReg s reg r ∧ Reads s value v ∧ t = wrote s r (f (s.regs.get r) v) := by
  rcases dst_cases s reg with ⟨r, hd, hr⟩ | ⟨hd, -⟩
  · rcases resolve_cases s value with ⟨v, hv, hread⟩ | ⟨hv, -⟩
    · simp only [binaryOp, hd, hv, bind, Except.bind, pure, Except.pure, conclude_advance] at h
      cases h
      exact .inr ⟨r, v, hr, hread, rfl⟩
    · simp only [binaryOp, hd, hv, bind, Except.bind, conclude_error] at h
      cases h
      exact .inl ⟨_, _, by decide, .inr ⟨_, ‹_›, rfl⟩, rfl⟩
  · simp only [binaryOp, hd, bind, Except.bind, conclude_error] at h
    cases h
    exact .inl ⟨_, _, by decide, .inr ⟨_, ‹_›, rfl⟩, rfl⟩

theorem jumpIf_cases {label : Token} {taken : Bool} (hl : label ∈ i.operands)
    (h : jumpIf i label taken s = .next t) :
    Latches s t i ∨ ∃ k : Nat, BindsTo s label k ∧ t = stepped s (if taken then (k : Int) else s.pc + 1) := by
  rcases target_cases s label with ⟨k, hk, hb⟩ | ⟨hk, -⟩
  · refine .inr ⟨k, hb, ?_⟩
    cases taken <;>
      simp only [jumpIf, hk, bind, Except.bind, pure, Except.pure, if_true, Bool.false_eq_true, if_false,
        conclude_jump, conclude_advance] at h <;>
      cases h <;> rfl
  · simp only [jumpIf, hk, bind, Except.bind, conclude_error] at h
    cases h
    exact .inl ⟨_, _, by decide, .inr ⟨_, ‹_›, rfl⟩, rfl⟩

end

/-- Everything an instruction can do: it latches an error, or has the effect listed for it. -/
theorem exec_cases {i : Instr} {s t : State} (h : exec i s = .next t) : Latches s t i ∨ Effect s t i := by
  cases i with
  | iniciar =>
    rw [exec, execIniciar, conclude_advance] at h
    cases h
    exact .inr rfl
  | parar =>
    rw [exec, execParar, conclude_advance] at h
    cases h
    exact .inr rfl
  | status =>
    rw [exec, execStatus, conclude_advance] at h
    cases h
    exact .inr rfl
  | halt =>
    rw [exec, execHalt, conclude_advance] at h
    cases h
    exact .inr rfl
  | ret =>
    rw [exec, execRet] at h
    split at h
    · cases h
      exact .inl ⟨_, _, by decide, by simp [Instr.operands], rfl⟩
    · rename_i v rest hs
      rw [conclude_jump] at h
      cases h
      exact .inr ⟨v, rest, hs, rfl⟩
  | inc reg => exact unaryOp_cases (by simp [Instr.operands]) (f := fun x => x + 1) h
  | dec reg => exact unaryOp_cases (by simp [Instr.operands]) h
  | not reg => exact unaryOp_cases (by simp [Instr.operands]) h
  | set reg value => exact binaryOp_cases (by simp [Instr.operands]) (by simp [Instr.operands]) (f := fun _ v => v) h
  | add reg value => exact binaryOp_cases (by simp [Instr.operands]) (by simp [Instr.operands]) (f := fun x v => x + v) h
  | sub reg value => exact binaryOp_cases (by simp [Instr.operands]) (by simp [Instr.operands]) (f := fun x v => x - v) h
  | mul reg value => exact binaryOp_cases (by simp [Instr.operands]) (by simp [Instr.operands]) (f := fun x v => x * v) h
  | and reg value => exact binaryOp_cases (by simp [Instr.operands]) (by simp [Instr.operands]) h
  | or reg value => exact binaryOp_cases (by simp [Instr.operands]) (by simp [Instr.operands]) h
  | xor reg value => exact binaryOp_cases (by simp [Instr.operands]) (by simp [Instr.operands]) h
  | jz label => exact jumpIf_cases (by simp [Instr.operands]) h
  | jnz label => exact jumpIf_cases (by simp [Instr.operands]) h
  | jl label => exact jumpIf_cases (by simp [Instr.operands]) h
  | jg label => exact jumpIf_cases (by simp [Instr.operands]) h
  | goto label => exact jumpIf_cases (by simp [Instr.operands]) (taken := true) h
  | call label =>
    rcases target_cases s label with ⟨k, hk, hb⟩ | ⟨hk, -⟩ <;>
      simp only [exec, execCall, hk, bind, Except.bind, pure, Except.pure, conclude_jump, conclude_error] at h <;>
      cases h
    · exact .inr ⟨k, hb, rfl⟩
    · exact .inl ⟨_, _, by decide, by simp [Instr.operands], rfl⟩
  | push value =>
    rcases resolve_cases s value with ⟨v, hv, hr⟩ | ⟨hv, -⟩ <;>
      simp only [exec, execPush, hv, bind, Except.bind, pure, Except.pure, conclude_advance, conclude_error] at h <;>
      cases h
    · exact .inr ⟨v, hr, rfl⟩
    · exact .inl ⟨_, _, by decide, by simp [Instr.operands], rfl⟩
  | pop reg =>
    rcases dst_cases s reg with ⟨r, hd, hr⟩ | ⟨hd, -⟩
    · simp only [exec, execPop, hd, bind, Except.bind] at h
      split at h
      · cases h
        exact .inl ⟨_, _, by decide, by simp [Instr.operands], rfl⟩
      · rename_i v rest hs
        simp only [pure, Except.pure, conclude_advance] at h
        cases h
        exact .inr ⟨r, v, rest, hr, hs, rfl⟩
    · simp only [exec, execPop, hd, bind, Except.bind, conclude_error] at h
      cases h
      exact .inl ⟨_, _, by decide, by simp [Instr.operands], rfl⟩
  | div reg value =>
    rcases dst_cases s reg with ⟨r, hd, hr⟩ | ⟨hd, -⟩
    · rcases resolve_cases s value with ⟨v, hv, hread⟩ | ⟨hv, -⟩
      · simp only [exec, execDiv, hd, hv, bind, Except.bind] at h
        split at h
        · cases h
          exact .inl ⟨_, _, by decide, by simp [Instr.operands], rfl⟩
        · rename_i h0
          simp only [pure, Except.pure, conclude_advance] at h
          cases h
          exact .inr ⟨r, v, hr, hread, h0, rfl⟩
      · simp only [exec, execDiv, hd, hv, bind, Except.bind, conclude_error] at h
        cases h
        exact .inl ⟨_, _, by decide, by simp [Instr.operands], rfl⟩
    · simp only [exec, execDiv, hd, bind, Except.bind, conclude_error] at h
      cases h
      exact .inl ⟨_, _, by decide, by simp [Instr.operands], rfl⟩
  | decjz reg label =>
    rcases dst_cases s reg with ⟨r, hd, hr⟩ | ⟨hd, -⟩
    · rcases target_cases s label with ⟨k, hk, hb⟩ | ⟨hk, -⟩
      · simp only [exec, execDecjz, hd, hk, bind, Except.bind, pure, Except.pure] at h
        refine .inr ⟨r, k, hr, hb, ?_⟩
        split at h <;> simp only [conclude_jump, conclude_advance] at h <;> cases h
        · rename_i h0
          rw [if_pos h0]
        · rename_i h0
          rw [if_neg h0]
          rfl
      · simp only [exec, execDecjz, hd, hk, bind, Except.bind, conclude_error] at h
        cases h
        exact .inl ⟨_, _, by decide, by simp [Instr.operands], rfl⟩
    · simp only [exec, execDecjz, hd, bind, Except.bind, conclude_error] at h
      cases h
      exact .inl ⟨_, _, by decide, by simp [Instr.operands], rfl⟩
  | load reg addr =>
    rcases dst_cases s reg with ⟨r, hd, hr⟩ | ⟨hd, -⟩
    · rcases resolve_cases s addr with ⟨v, hv, hread⟩ | ⟨hv, -⟩ <;>
        simp only [exec, execLoad, hd, hv, bind, Except.bind, pure, Except.pure, conclude_advance,
          conclude_error] at h <;>
        cases h
      · exact .inr ⟨r, v, hr, hread, rfl⟩
      · exact .inl ⟨_, _, by decide, by simp [Instr.operands], rfl⟩
    · simp only [exec, execLoad, hd, bind, Except.bind, conclude_error] at h
      cases h
      exact .inl ⟨_, _, by decide, by simp [Instr.operands], rfl⟩
  | store value addr =>
    rcases resolve_cases s value with ⟨v, hv, hread⟩ | ⟨hv, -⟩
    · rcases resolve_cases s addr with ⟨a, ha, hread'⟩ | ⟨ha, -⟩ <;>
        simp only [exec, execStore, hv, ha, bind, Except.bind, pure, Except.pure, conclude_advance,
          conclude_error] at h <;>
        cases h
      · exact .inr ⟨v, a, hread, hread', rfl⟩
      · exact .inl ⟨_, _, by decide, by simp [Instr.operands], rfl⟩
    · simp only [exec, execStore, hv, bind, Except.bind, conclude_error] at h
      cases h
      exact .inl ⟨_, _, by decide, by simp [Instr.operands], rfl⟩
  | cmp left right =>
    rcases resolve_cases s left with ⟨v, hv, hread⟩ | ⟨hv, -⟩
    · rcases resolve_cases s right with ⟨a, ha, hread'⟩ | ⟨ha, -⟩ <;>
        simp only [exec, execCmp, hv, ha, bind, Except.bind, pure, Except.pure, conclude_advance,
          conclude_error] at h <;>
        cases h
      · exact .inr ⟨v, a, hread, hread', rfl⟩
      · exact .inl ⟨_, _, by decide, by simp [Instr.operands], rfl⟩
    · simp only [exec, execCmp, hv, bind, Except.bind, conclude_error] at h
      cases h
      exact .inl ⟨_, _, by decide, by simp [Instr.operands], rfl⟩
  | readsensor reg name =>
    rcases dst_cases s reg with ⟨r, hd, hr⟩ | ⟨hd, -⟩
    · rcases sensorOf_cases s name with ⟨k, hk, hn⟩ | ⟨hk, -⟩ <;>
        simp only [exec, execReadsensor, hd, hk, bind, Except.bind, pure, Except.pure, conclude_advance,
          conclude_error] at h <;>
        cases h
      · refine .inr ⟨r, k, hr, hn, ?_⟩
        rcases sensorValue_state s k with hs | ⟨e, -, hs⟩ <;> simp [hs, State.setReg]
      · exact .inl ⟨_, _, by decide, by simp [Instr.operands], rfl⟩
    · simp only [exec, execReadsensor, hd, bind, Except.bind, conclude_error] at h
      cases h
      exact .inl ⟨_, _, by decide, by simp [Instr.operands], rfl⟩

/-- What every effect leaves alone, and what it does to the counters (R116): it is the end of a step over a state that
has the counters, the latch, the program, the labels and the parameters of `s`. -/
theorem Effect.stepped_of {s t : State} {i : Instr} (h : Effect s t i) :
    ∃ u pc, t = stepped u pc ∧ u.steps = s.steps ∧ u.elapsedTime = s.elapsedTime ∧ u.fault = s.fault ∧
      u.loadFailed = s.loadFailed ∧ u.program = s.program ∧ u.labels = s.labels ∧ u.params = s.params := by
  cases i with
  | decjz reg label =>
    obtain ⟨r, k, -, -, rfl⟩ := h
    split_ifs <;> exact ⟨_, _, rfl, rfl, rfl, rfl, rfl, rfl, rfl, rfl⟩
  | readsensor reg name =>
    obtain ⟨r, k, -, -, rfl⟩ := h
    rcases sensorValue_state s k with hs | ⟨e, -, hs⟩ <;>
      rw [hs] <;> exact ⟨_, _, rfl, rfl, rfl, rfl, rfl, rfl, rfl, rfl⟩
  | iniciar => cases h; exact ⟨_, _, rfl, rfl, rfl, rfl, rfl, rfl, rfl, rfl⟩
  | parar => cases h; exact ⟨_, _, rfl, rfl, rfl, rfl, rfl, rfl, rfl, rfl⟩
  | status => cases h; exact ⟨_, _, rfl, rfl, rfl, rfl, rfl, rfl, rfl, rfl⟩
  | halt => cases h; exact ⟨_, _, rfl, rfl, rfl, rfl, rfl, rfl, rfl, rfl⟩
  | inc p => obtain ⟨_, -, rfl⟩ := h; exact ⟨_, _, rfl, rfl, rfl, rfl, rfl, rfl, rfl, rfl⟩
  | dec p => obtain ⟨_, -, rfl⟩ := h; exact ⟨_, _, rfl, rfl, rfl, rfl, rfl, rfl, rfl, rfl⟩
  | not p => obtain ⟨_, -, rfl⟩ := h; exact ⟨_, _, rfl, rfl, rfl, rfl, rfl, rfl, rfl, rfl⟩
  | goto p => obtain ⟨_, -, rfl⟩ := h; exact ⟨_, _, rfl, rfl, rfl, rfl, rfl, rfl, rfl, rfl⟩
  | call p => obtain ⟨_, -, rfl⟩ := h; exact ⟨_, _, rfl, rfl, rfl, rfl, rfl, rfl, rfl, rfl⟩
  | push p => obtain ⟨_, -, rfl⟩ := h; exact ⟨_, _, rfl, rfl, rfl, rfl, rfl, rfl, rfl, rfl⟩
  | jz p => obtain ⟨_, -, rfl⟩ := h; exact ⟨_, _, rfl, rfl, rfl, rfl, rfl, rfl, rfl, rfl⟩
  | jnz p => obtain ⟨_, -, rfl⟩ := h; exact ⟨_, _, rfl, rfl, rfl, rfl, rfl, rfl, rfl, rfl⟩
  | jl p => obtain ⟨_, -, rfl⟩ := h; exact ⟨_, _, rfl, rfl, rfl, rfl, rfl, rfl, rfl, rfl⟩
  | jg p => obtain ⟨_, -, rfl⟩ := h; exact ⟨_, _, rfl, rfl, rfl, rfl, rfl, rfl, rfl, rfl⟩
  | ret => obtain ⟨_, _, -, rfl⟩ := h; exact ⟨_, _, rfl, rfl, rfl, rfl, rfl, rfl, rfl, rfl⟩
  | pop p => obtain ⟨_, _, _, -, -, rfl⟩ := h; exact ⟨_, _, rfl, rfl, rfl, rfl, rfl, rfl, rfl, rfl⟩
  | div p q => obtain ⟨_, _, -, -, -, rfl⟩ := h; exact ⟨_, _, rfl, rfl, rfl, rfl, rfl, rfl, rfl, rfl⟩
  | set p q => obtain ⟨_, _, -, -, rfl⟩ := h; exact ⟨_, _, rfl, rfl, rfl, rfl, rfl, rfl, rfl, rfl⟩
  | add p q => obtain ⟨_, _, -, -, rfl⟩ := h; exact ⟨_, _, rfl, rfl, rfl, rfl, rfl, rfl, rfl, rfl⟩
  | sub p q => obtain ⟨_, _, -, -, rfl⟩ := h; exact ⟨_, _, rfl, rfl, rfl, rfl, rfl, rfl, rfl, rfl⟩
  | mul p q => obtain ⟨_, _, -, -, rfl⟩ := h; exact ⟨_, _, rfl, rfl, rfl, rfl, rfl, rfl, rfl, rfl⟩
  | and p q => obtain ⟨_, _, -, -, rfl⟩ := h; exact ⟨_, _, rfl, rfl, rfl, rfl, rfl, rfl, rfl, rfl⟩
  | or p q => obtain ⟨_, _, -, -, rfl⟩ := h; exact ⟨_, _, rfl, rfl, rfl, rfl, rfl, rfl, rfl, rfl⟩
  | xor p q => obtain ⟨_, _, -, -, rfl⟩ := h; exact ⟨_, _, rfl, rfl, rfl, rfl, rfl, rfl, rfl, rfl⟩
  | load p q => obtain ⟨_, _, -, -, rfl⟩ := h; exact ⟨_, _, rfl, rfl, rfl, rfl, rfl, rfl, rfl, rfl⟩
  | store p q => obtain ⟨_, _, -, -, rfl⟩ := h; exact ⟨_, _, rfl, rfl, rfl, rfl, rfl, rfl, rfl, rfl⟩
  | cmp p q => obtain ⟨_, _, -, -, rfl⟩ := h; exact ⟨_, _, rfl, rfl, rfl, rfl, rfl, rfl, rfl, rfl⟩

/-- Everything a step can do where nothing stops it: halt at a pc out of range, or what its instruction does. -/
theorem step_cases {s t : State} (h : step s = .next t) :
    s.loadFailed = false ∧
      ((s.fault.isSome = true ∧ t = s) ∨ (s.fault = none ∧ s.halted = true ∧ t = s) ∨
        (Active s ∧ fetch s = none ∧ t = { s with halted := true }) ∨
        ∃ i, Active s ∧ fetch s = some i ∧ exec i s = .next t ∧ (Latches s t i ∨ Effect s t i)) := by
  simp only [step, cycle] at h
  split_ifs at h with hl hf hh
  · cases h
    exact ⟨by simpa using hl, .inl ⟨hf, rfl⟩⟩
  · cases h
    exact ⟨by simpa using hl, .inr (.inl ⟨by simpa using hf, hh, rfl⟩)⟩
  · have ha : Active s := ⟨by simpa using hl, by simpa using hf, by simpa using hh⟩
    refine ⟨ha.1, .inr (.inr ?_)⟩
    split at h
    · rename_i hn
      cases h
      exact .inl ⟨ha, hn, rfl⟩
    · rename_i i hi
      exact .inr ⟨i, ha, hi, h, exec_cases h⟩

end Sys2Proof.Machine
end

