-- ==== Sys2Proof/Laws/Memory.lean ====
section
/-!
SUPPORT. RAM: read after write, every write keeps the list's one form, and equal readings are equal lists.
-/

namespace Sys2Proof.Machine

/-- A list in its form stays in it without its first word. -/
theorem Memory.wf_tail {c : Nat × Int} {m : Memory} (h : Memory.wf (c :: m)) : Memory.wf m :=
  ⟨(List.pairwise_cons.mp h.1).2, fun d hd => h.2 d (List.mem_cons_of_mem _ hd)⟩

/-- An address below every listed one reads as an unlisted word. -/
theorem Memory.read_of_forall_lt {m : Memory} {a : Nat} (h : ∀ c ∈ m, a < c.1) : m.read a = Memory.unlisted := by
  induction m with
  | nil => rfl
  | cons c m ih =>
    have hc : a < c.1 := h c List.mem_cons_self
    have := ih fun d hd => h d (List.mem_cons_of_mem _ hd)
    simp [Memory.read, Nat.ne_of_lt hc, this]

/-- MemRead after MemWrite (R52, R53): the word written reads as the value, every other one as before. -/
theorem Memory.read_write {m : Memory} (h : m.wf) (a b : Nat) (v : Int) :
    (m.write a v).read b = if b = a then v else m.read b := by
  induction m with
  | nil =>
    simp only [Memory.write]
    split <;> simp_all [Memory.read]
  | cons c m ih =>
    obtain ⟨d, w⟩ := c
    have below : ∀ c ∈ m, d < c.1 := fun c hc => (List.pairwise_cons.mp h.1).1 c hc
    have unl : Memory.read m d = Memory.unlisted := Memory.read_of_forall_lt below
    have unl' : a < d → Memory.read m a = Memory.unlisted :=
      fun had => Memory.read_of_forall_lt fun c hc => Nat.lt_trans had (below c hc)
    have ih := ih (Memory.wf_tail h)
    simp only [Memory.write]
    split_ifs <;> (try simp only [Memory.read, ih]) <;> (try split_ifs) <;> first | rfl | omega | simp_all

/-- The addresses a write leaves listed. -/
theorem Memory.mem_write {m : Memory} {a : Nat} {v : Int} {c : Nat × Int} (h : c ∈ m.write a v) :
    c ∈ m ∨ (c = (a, v) ∧ v ≠ Memory.unlisted) := by
  induction m with
  | nil =>
    simp only [Memory.write] at h
    split at h <;> simp_all
  | cons d m ih =>
    simp only [Memory.write] at h
    split_ifs at h <;> simp_all
    all_goals tauto

/-- MemWrite keeps the list's one form. -/
theorem Memory.write_wf {m : Memory} (h : m.wf) {a : Nat} (ha : a < Config.ramSize) (v : Int) :
    (m.write a v).wf := by
  refine ⟨?_, fun c hc => ?_⟩
  · induction m with
    | nil =>
      simp only [Memory.write]
      split <;> simp
    | cons d m ih =>
      have ht := Memory.wf_tail h
      have below := (List.pairwise_cons.mp h.1).1
      have ih := ih ht
      simp only [Memory.write]
      split_ifs with h1 h2 h3 h4
      · exact h.1
      · exact List.pairwise_cons.mpr
          ⟨fun c hc => (List.mem_cons.mp hc).elim (fun e => e ▸ h1) fun hm => Nat.lt_trans h1 (below c hm), h.1⟩
      · exact ht.1
      · exact List.pairwise_cons.mpr ⟨fun c hc => h3 ▸ below c hc, ht.1⟩
      · refine List.pairwise_cons.mpr ⟨fun c hc => ?_, ih⟩
        rcases Memory.mem_write hc with hm | ⟨rfl, -⟩
        · exact below c hm
        · show d.1 < a
          omega
  · rcases Memory.mem_write hc with hm | ⟨rfl, hv⟩
    · exact h.2 c hm
    · exact ⟨hv, ha⟩

/-- Two RAM lists in their form that read alike everywhere are the same list. -/
theorem Memory.ext_of_read {m n : Memory} (hm : m.wf) (hn : n.wf) (h : ∀ a, m.read a = n.read a) : m = n := by
  induction m generalizing n with
  | nil =>
    cases n with
    | nil => rfl
    | cons c n =>
      have := h c.1
      simp only [Memory.read] at this
      exact absurd this.symm (hn.2 c List.mem_cons_self).1
  | cons c m ih =>
    obtain ⟨a, v⟩ := c
    have hv := (hm.2 (a, v) List.mem_cons_self).1
    have am := (List.pairwise_cons.mp hm.1).1
    cases n with
    | nil =>
      have := h a
      simp only [Memory.read] at this
      exact absurd this hv
    | cons d n =>
      obtain ⟨b, w⟩ := d
      have hw := (hn.2 (b, w) List.mem_cons_self).1
      have bn := (List.pairwise_cons.mp hn.1).1
      have hab : a = b := by
        rcases Nat.lt_trichotomy a b with hlt | he | hgt
        · have hr := h a
          have hu : Memory.read n a = Memory.unlisted :=
            Memory.read_of_forall_lt fun c hc => Nat.lt_trans hlt (bn c hc)
          simp [Memory.read, Nat.ne_of_lt hlt, hu] at hr
          exact absurd hr hv
        · exact he
        · have hr := h b
          have hu : Memory.read m b = Memory.unlisted :=
            Memory.read_of_forall_lt fun c hc => Nat.lt_trans hgt (am c hc)
          simp [Memory.read, Nat.ne_of_lt hgt, hu] at hr
          exact absurd hr.symm hw
      subst hab
      have hvw : v = w := by simpa [Memory.read] using h a
      subst hvw
      have htail : m = n := by
        refine ih (Memory.wf_tail hm) (Memory.wf_tail hn) fun x => ?_
        by_cases hx : x = a
        · subst hx
          rw [Memory.read_of_forall_lt am, Memory.read_of_forall_lt bn]
        · simpa [Memory.read, hx] using h x
      rw [htail]

/-- A machine just constructed has RAM in its form: nothing is listed. -/
theorem State.construct_ram_wf (p : Params) : (State.construct p).ram.wf := by
  simp [State.construct, Memory.wf]

/-- So has the machine after reset. -/
theorem State.reset_ram_wf : State.reset.ram.wf := State.construct_ram_wf _

/-- The effective address is a word of RAM (R51). -/
theorem effectiveAddress_lt (a : Int) : effectiveAddress a < Config.ramSize := by
  simp only [effectiveAddress, Config.ramSize]
  omega

/-- The effective address is the residue modulo 256 (R51). -/
theorem effectiveAddress_eq (a : Int) : (effectiveAddress a : Int) = a % 256 := by
  simp only [effectiveAddress, Config.ramSize]
  omega

/-- The one write to RAM an instruction makes keeps the form. -/
theorem State.setRam_wf {s : State} (h : s.ram.wf) (a v : Int) : (s.setRam (effectiveAddress a) v).ram.wf :=
  Memory.write_wf h (effectiveAddress_lt a) v

end Sys2Proof.Machine
end

