-- ==== Sys2Proof/Laws/PerInstr.lean ====
section
/-!
SUPPORT. Family Rebuilds (LAWS.json): about the instruction as syntax, one lemma per constructor. An instruction is put
together again from its opcode and operand tokens, its operand count is its arity, and its number and its mnemonic
name its opcode (spec/30_encoding.md R78, R80, R82).
-/

namespace Sys2Proof.Laws.Rebuilds

/-- What the family says of an instruction. -/
def Statement (i : Instr) : Prop :=
  i.opcode.build i.operands = some i ∧ i.operands.length = i.opcode.arity ∧
    Opcode.ofCode i.opcode.code = some i.opcode ∧ Opcode.ofMnemonic i.opcode.mnemonic = some i.opcode

theorem iniciar : Statement .iniciar := ⟨rfl, rfl, Opcode.ofCode_code _, Opcode.ofMnemonic_mnemonic _⟩
theorem parar : Statement .parar := ⟨rfl, rfl, Opcode.ofCode_code _, Opcode.ofMnemonic_mnemonic _⟩
theorem status : Statement .status := ⟨rfl, rfl, Opcode.ofCode_code _, Opcode.ofMnemonic_mnemonic _⟩
theorem halt : Statement .halt := ⟨rfl, rfl, Opcode.ofCode_code _, Opcode.ofMnemonic_mnemonic _⟩
theorem ret : Statement .ret := ⟨rfl, rfl, Opcode.ofCode_code _, Opcode.ofMnemonic_mnemonic _⟩
theorem inc (p : Token) : Statement (.inc p) := ⟨rfl, rfl, Opcode.ofCode_code _, Opcode.ofMnemonic_mnemonic _⟩
theorem dec (p : Token) : Statement (.dec p) := ⟨rfl, rfl, Opcode.ofCode_code _, Opcode.ofMnemonic_mnemonic _⟩
theorem goto (p : Token) : Statement (.goto p) := ⟨rfl, rfl, Opcode.ofCode_code _, Opcode.ofMnemonic_mnemonic _⟩
theorem call (p : Token) : Statement (.call p) := ⟨rfl, rfl, Opcode.ofCode_code _, Opcode.ofMnemonic_mnemonic _⟩
theorem push (p : Token) : Statement (.push p) := ⟨rfl, rfl, Opcode.ofCode_code _, Opcode.ofMnemonic_mnemonic _⟩
theorem pop (p : Token) : Statement (.pop p) := ⟨rfl, rfl, Opcode.ofCode_code _, Opcode.ofMnemonic_mnemonic _⟩
theorem jz (p : Token) : Statement (.jz p) := ⟨rfl, rfl, Opcode.ofCode_code _, Opcode.ofMnemonic_mnemonic _⟩
theorem jnz (p : Token) : Statement (.jnz p) := ⟨rfl, rfl, Opcode.ofCode_code _, Opcode.ofMnemonic_mnemonic _⟩
theorem jl (p : Token) : Statement (.jl p) := ⟨rfl, rfl, Opcode.ofCode_code _, Opcode.ofMnemonic_mnemonic _⟩
theorem jg (p : Token) : Statement (.jg p) := ⟨rfl, rfl, Opcode.ofCode_code _, Opcode.ofMnemonic_mnemonic _⟩
theorem not (p : Token) : Statement (.not p) := ⟨rfl, rfl, Opcode.ofCode_code _, Opcode.ofMnemonic_mnemonic _⟩
theorem set (p q : Token) : Statement (.set p q) := ⟨rfl, rfl, Opcode.ofCode_code _, Opcode.ofMnemonic_mnemonic _⟩
theorem add (p q : Token) : Statement (.add p q) := ⟨rfl, rfl, Opcode.ofCode_code _, Opcode.ofMnemonic_mnemonic _⟩
theorem sub (p q : Token) : Statement (.sub p q) := ⟨rfl, rfl, Opcode.ofCode_code _, Opcode.ofMnemonic_mnemonic _⟩
theorem mul (p q : Token) : Statement (.mul p q) := ⟨rfl, rfl, Opcode.ofCode_code _, Opcode.ofMnemonic_mnemonic _⟩
theorem div (p q : Token) : Statement (.div p q) := ⟨rfl, rfl, Opcode.ofCode_code _, Opcode.ofMnemonic_mnemonic _⟩
theorem decjz (p q : Token) : Statement (.decjz p q) := ⟨rfl, rfl, Opcode.ofCode_code _, Opcode.ofMnemonic_mnemonic _⟩
theorem load (p q : Token) : Statement (.load p q) := ⟨rfl, rfl, Opcode.ofCode_code _, Opcode.ofMnemonic_mnemonic _⟩
theorem store (p q : Token) : Statement (.store p q) := ⟨rfl, rfl, Opcode.ofCode_code _, Opcode.ofMnemonic_mnemonic _⟩
theorem cmp (p q : Token) : Statement (.cmp p q) := ⟨rfl, rfl, Opcode.ofCode_code _, Opcode.ofMnemonic_mnemonic _⟩
theorem and (p q : Token) : Statement (.and p q) := ⟨rfl, rfl, Opcode.ofCode_code _, Opcode.ofMnemonic_mnemonic _⟩
theorem or (p q : Token) : Statement (.or p q) := ⟨rfl, rfl, Opcode.ofCode_code _, Opcode.ofMnemonic_mnemonic _⟩
theorem xor (p q : Token) : Statement (.xor p q) := ⟨rfl, rfl, Opcode.ofCode_code _, Opcode.ofMnemonic_mnemonic _⟩
theorem readsensor (p q : Token) : Statement (.readsensor p q) := ⟨rfl, rfl, Opcode.ofCode_code _, Opcode.ofMnemonic_mnemonic _⟩

end Sys2Proof.Laws.Rebuilds
end

