-- ==== Sys2Proof/Tests/Slice0.lean ====
section
/-!
SUPPORT. Tests. Expected results are those of the spec's own examples and vectors (spec/95_test_vectors.md, and the
examples of files 30 to 45); a comment names the vector. Register and sensor names are the spec's placeholders.
-/

namespace Sys2Proof.Tests

open Sys2Proof.Machine

/-- A string as text. -/
def tx (w : String) : Text := w.toList

/-- A machine with a program, from reset. -/
def machine (program : List Instr) (labels : LabelTable) : State :=
  { State.reset with program := program, labels := labels }

/-- A machine with ACC and B set, a label L at 7 and the stack given. -/
def box (acc b : Int) (stack : List Int) : State :=
  { State.reset with
    regs := (Regs.zero.set .acc acc).set .b b
    stack := stack
    labels := [(tx "L", 7)] }

/-- What a check reads off the next state; none where there is none. -/
def peek {α : Type} (o : Host.Outcome State Fault Refusal) (f : State → α) : Option α :=
  match o with
  | .next t => some (f t)
  | _ => none

/-- The kind and info of a latched fault. -/
def faultOf (s : State) : Option (ErrKind × ErrInfo) := s.fault.map fun e => (e.kind, e.info)

/-! ### Well-formedness: each check refuses a term that breaks it alone -/

theorem test_wf_operands : (Instr.set (tx "ACC") (tx "5")).wf = true ∧ Instr.halt.wf = true := by decide

theorem test_wf_refuses_empty_token : (Instr.inc []).wf = false := by decide

theorem test_wf_refuses_whitespace : (Instr.push (tx "A B")).wf = false := by decide

theorem test_wf_refuses_comma : (Instr.set (tx "ACC") (tx "5,")).wf = false := by decide

theorem test_wf_refuses_semicolon : (Instr.goto (tx "a;b")).wf = false := by decide

theorem test_params_wf : Config.placeholderParams.wf = true := by decide

theorem test_params_wf_refuses_same_name :
    ({ Config.placeholderRegNames with sp := tx "ACC" } : RegNames).wf = false := by decide

theorem test_params_wf_refuses_literal_name :
    ({ Config.placeholderRegNames with b := tx "-7" } : RegNames).wf = false := by decide

theorem test_params_wf_refuses_separator_in_name :
    ({ Config.placeholderRegNames with b := tx "B;" } : RegNames).wf = false := by decide

theorem test_params_wf_refuses_upper_case_sensor :
    ({ Config.placeholderSensorNames with ext1 := tx "Ext1" } : SensorNames).wf = false := by decide

theorem test_params_wf_refuses_same_sensor :
    ({ Config.placeholderSensorNames with ext1 := tx "ext2" } : SensorNames).wf = false := by decide

theorem test_params_wf_refuses_empty_bounds : (ExtSource.mk 0 [] (some (2, 1))).wf = false := by decide

theorem test_params_wf_refuses_script_out_of_bounds : (ExtSource.mk 0 [9] (some (0, 8))).wf = false := by decide

/-! ### Decoding: for every constructor a word written from R82's number (with one-character operands), and a line -/

theorem test_word_iniciar : decode [0x00] = .ok (.iniciar, []) := by decide

theorem test_word_parar : decode [0x01] = .ok (.parar, []) := by decide

theorem test_word_status : decode [0x02] = .ok (.status, []) := by decide

theorem test_word_halt : decode [0x03] = .ok (.halt, []) := by decide

theorem test_word_ret : decode [0x04] = .ok (.ret, []) := by decide

theorem test_word_inc : decode [0x05, 0x42, 0, 0, 0] = .ok (.inc ['B'], []) := by decide

theorem test_word_dec : decode [0x06, 0x42, 0, 0, 0] = .ok (.dec ['B'], []) := by decide

theorem test_word_goto : decode [0x07, 0x78, 0, 0, 0] = .ok (.goto ['x'], []) := by decide

theorem test_word_call : decode [0x08, 0x78, 0, 0, 0] = .ok (.call ['x'], []) := by decide

theorem test_word_push : decode [0x09, 0x37, 0, 0, 0] = .ok (.push ['7'], []) := by decide

theorem test_word_pop : decode [0x0a, 0x42, 0, 0, 0] = .ok (.pop ['B'], []) := by decide

theorem test_word_jz : decode [0x0b, 0x78, 0, 0, 0] = .ok (.jz ['x'], []) := by decide

theorem test_word_jnz : decode [0x0c, 0x78, 0, 0, 0] = .ok (.jnz ['x'], []) := by decide

theorem test_word_jl : decode [0x0d, 0x78, 0, 0, 0] = .ok (.jl ['x'], []) := by decide

theorem test_word_jg : decode [0x0e, 0x78, 0, 0, 0] = .ok (.jg ['x'], []) := by decide

theorem test_word_not : decode [0x0f, 0x42, 0, 0, 0] = .ok (.not ['B'], []) := by decide

theorem test_word_set : decode [0x10, 0x42, 0, 0, 0, 0x37, 0, 0, 0] = .ok (.set ['B'] ['7'], []) := by decide

theorem test_word_add : decode [0x11, 0x42, 0, 0, 0, 0x37, 0, 0, 0] = .ok (.add ['B'] ['7'], []) := by decide

theorem test_word_sub : decode [0x12, 0x42, 0, 0, 0, 0x37, 0, 0, 0] = .ok (.sub ['B'] ['7'], []) := by decide

theorem test_word_mul : decode [0x13, 0x42, 0, 0, 0, 0x37, 0, 0, 0] = .ok (.mul ['B'] ['7'], []) := by decide

theorem test_word_div : decode [0x14, 0x42, 0, 0, 0, 0x37, 0, 0, 0] = .ok (.div ['B'] ['7'], []) := by decide

theorem test_word_decjz : decode [0x15, 0x42, 0, 0, 0, 0x78, 0, 0, 0] = .ok (.decjz ['B'] ['x'], []) := by decide

theorem test_word_load : decode [0x16, 0x42, 0, 0, 0, 0x37, 0, 0, 0] = .ok (.load ['B'] ['7'], []) := by decide

theorem test_word_store : decode [0x17, 0x37, 0, 0, 0, 0x37, 0, 0, 0] = .ok (.store ['7'] ['7'], []) := by decide

theorem test_word_cmp : decode [0x18, 0x37, 0, 0, 0, 0x37, 0, 0, 0] = .ok (.cmp ['7'] ['7'], []) := by decide

theorem test_word_and : decode [0x19, 0x42, 0, 0, 0, 0x37, 0, 0, 0] = .ok (.and ['B'] ['7'], []) := by decide

theorem test_word_or : decode [0x1a, 0x42, 0, 0, 0, 0x37, 0, 0, 0] = .ok (.or ['B'] ['7'], []) := by decide

theorem test_word_xor : decode [0x1b, 0x42, 0, 0, 0, 0x37, 0, 0, 0] = .ok (.xor ['B'] ['7'], []) := by decide

theorem test_word_readsensor : decode [0x1c, 0x42, 0, 0, 0, 0x73, 0, 0, 0] = .ok (.readsensor ['B'] ['s'], []) := by decide

theorem test_line_iniciar : decodeLine (tx "INICIAR") = .ok (.iniciar) := by decide

theorem test_line_parar : decodeLine (tx "PARAR") = .ok (.parar) := by decide

theorem test_line_status : decodeLine (tx "STATUS") = .ok (.status) := by decide

theorem test_line_halt : decodeLine (tx "HALT") = .ok (.halt) := by decide

theorem test_line_ret : decodeLine (tx "RET") = .ok (.ret) := by decide

theorem test_line_inc : decodeLine (tx "INC B") = .ok (.inc ['B']) := by decide

theorem test_line_dec : decodeLine (tx "DEC B") = .ok (.dec ['B']) := by decide

theorem test_line_goto : decodeLine (tx "GOTO x") = .ok (.goto ['x']) := by decide

theorem test_line_call : decodeLine (tx "CALL x") = .ok (.call ['x']) := by decide

theorem test_line_push : decodeLine (tx "PUSH 7") = .ok (.push ['7']) := by decide

theorem test_line_pop : decodeLine (tx "POP B") = .ok (.pop ['B']) := by decide

theorem test_line_jz : decodeLine (tx "JZ x") = .ok (.jz ['x']) := by decide

theorem test_line_jnz : decodeLine (tx "JNZ x") = .ok (.jnz ['x']) := by decide

theorem test_line_jl : decodeLine (tx "JL x") = .ok (.jl ['x']) := by decide

theorem test_line_jg : decodeLine (tx "JG x") = .ok (.jg ['x']) := by decide

theorem test_line_not : decodeLine (tx "NOT B") = .ok (.not ['B']) := by decide

theorem test_line_set : decodeLine (tx "SET B, 7") = .ok (.set ['B'] ['7']) := by decide

theorem test_line_add : decodeLine (tx "ADD B, 7") = .ok (.add ['B'] ['7']) := by decide

theorem test_line_sub : decodeLine (tx "SUB B, 7") = .ok (.sub ['B'] ['7']) := by decide

theorem test_line_mul : decodeLine (tx "MUL B, 7") = .ok (.mul ['B'] ['7']) := by decide

theorem test_line_div : decodeLine (tx "DIV B, 7") = .ok (.div ['B'] ['7']) := by decide

theorem test_line_decjz : decodeLine (tx "DECJZ B x") = .ok (.decjz ['B'] ['x']) := by decide

theorem test_line_load : decodeLine (tx "LOAD B, 7") = .ok (.load ['B'] ['7']) := by decide

theorem test_line_store : decodeLine (tx "STORE 7 7") = .ok (.store ['7'] ['7']) := by decide

theorem test_line_cmp : decodeLine (tx "CMP 7 7") = .ok (.cmp ['7'] ['7']) := by decide

theorem test_line_and : decodeLine (tx "AND B, 7") = .ok (.and ['B'] ['7']) := by decide

theorem test_line_or : decodeLine (tx "OR B, 7") = .ok (.or ['B'] ['7']) := by decide

theorem test_line_xor : decodeLine (tx "XOR B, 7") = .ok (.xor ['B'] ['7']) := by decide

theorem test_line_readsensor : decodeLine (tx "READSENSOR B s") = .ok (.readsensor ['B'] ['s']) := by decide

theorem test_word_long_token :
    decode [0x07, 0x4c, 0, 0, 1, 0x31, 0, 0, 0, 0xff] = .ok (.goto (tx "L1"), [0xff]) := by decide

theorem test_word_illegal_opcode : decode [0x1d] = .error (.illegalOpcode 29) := by decide

theorem test_word_truncated : decode [0x05, 0x42, 0, 0] = .error .truncated := by decide

theorem test_word_surrogate : decode [0x05, 0x00, 0xd8, 0, 0] = .error (.badCodePoint 0xd800) := by decide

theorem test_word_continuation : decode [0x05, 0x42, 0, 0, 2] = .error (.badContinuation 2) := by decide

theorem test_word_ill_formed : decode [0x05, 0x2c, 0, 0, 0] = .error (.illFormed (.inc [','])) := by decide

theorem test_encode_cmp : encode (.cmp (tx "A") (tx "-1")) = [0x18, 0x41, 0, 0, 0, 0x2d, 0, 0, 1, 0x31, 0, 0, 0] := by
  decide

theorem test_print_colon : (Instr.goto (tx "x:")).line = tx "GOTO x:," := by decide

/-! ### The loader (vectors LD1 to LD10, W1, W2) -/

-- LD1, LD4, LD8
theorem test_load_case_and_comment :
    assemble (tx "  set acc, 5 ; comment\nSET ACC,,5\r\nhalt") =
      .ok ([.set (tx "acc") (tx "5"), .set (tx "ACC") (tx "5"), .halt], []) := by decide

-- LD2
theorem test_load_label_needs_own_line :
    assemble (tx "loop: INC ACC") = .error ⟨.unknownOpcode, tx "loop: INC ACC", none⟩ := by decide

-- LD5
theorem test_load_labels :
    assemble (tx "x:\n\n ; c\nHALT\ny:") = .ok ([.halt], [(tx "x", 0), (tx "y", 1)]) := by decide

-- LD9
theorem test_load_labels_case_sensitive :
    assemble (tx "a:\nA:\nHALT") = .ok ([.halt], [(tx "a", 0), (tx "A", 0)]) := by decide

-- W1
theorem test_load_duplicate_first :
    assemble (tx "a:\nHALT\na:\nFOO") = .error ⟨.duplicateLabel, tx "a:", some (tx "a")⟩ := by decide

-- W2
theorem test_load_arity :
    assemble (tx "INC") = .error ⟨.arityMismatch, tx "INC", none⟩ ∧
      assemble (tx "HALT 1") = .error ⟨.arityMismatch, tx "HALT 1", none⟩ := by decide

-- LD10: the second load fails, keeps RAM, and step is refused
theorem test_load_failed :
    let s := (loadText (tx "FOO") { box 5 0 [] with ram := [(0, 9)] }).2
    s.loadFailed = true ∧ s.regs.acc = 0 ∧ s.ram = [(0, 9)] ∧ (stepCall s).1 = .refused := by decide

-- R76
theorem test_literals :
    literalValue (tx "-0") = some 0 ∧ literalValue (tx "007") = some 7 ∧ literalValue (tx "+5") = none ∧
      literalValue (tx "-") = none ∧ literalValue (tx "0x10") = none := by decide

/-! ### The instructions -/

-- SD7
theorem test_iniciar : peek (exec .iniciar (box 0 0 [])) (fun t => (t.running, t.elapsedTime, t.steps)) = some (true, 1, 1) := by decide

-- SD8
theorem test_parar : peek (exec .parar ({ box 0 0 [] with running := true, elapsedTime := 5 })) (fun t => (t.running, t.elapsedTime, t.steps)) = some (false, 5, 1) := by decide

-- SD9
theorem test_status : peek (exec .status ({ box 0 0 [] with pc := 3, running := true, elapsedTime := 2 })) (fun t => (t.pc, t.elapsedTime, t.io.statusEvents)) = some (4, 3, 1) := by decide

-- SD10
theorem test_halt : peek (exec .halt ({ box 0 0 [] with pc := 12, running := true, steps := 70 })) (fun t => ((t.pc, t.running), t.halted, t.steps, t.elapsedTime)) = some ((13, false), true, 71, 0) := by decide

-- CT12
theorem test_ret : peek (exec .ret (box 0 0 [-3])) (fun t => (t.pc, t.stack)) = some (-3, []) := by decide

-- CT13
theorem test_ret_underflow : peek (exec .ret (box 0 0 [])) (fun t => (t.pc, faultOf t)) = some (0, some (.stackUnderflow, .none)) := by decide

-- AR10
theorem test_inc : peek (exec (.inc (tx "ACC")) (box 9223372036854775807 0 [])) (fun t => t.regs.acc) = some 9223372036854775808 := by decide

-- LD1's error
theorem test_inc_unknown : peek (exec (.inc (tx "acc")) (box 1 0 [])) (fun t => (t.regs.acc, faultOf t)) = some (1, some (.invalidRegister, .token (tx "acc"))) := by decide

-- AR14
theorem test_dec_negative : peek (exec (.dec (tx "B")) (box 0 (-5) [])) (fun t => t.regs.b) = some 0 := by decide

-- AR11
theorem test_dec : peek (exec (.dec (tx "B")) (box 0 3 [])) (fun t => t.regs.b) = some 2 := by decide

-- CT1
theorem test_goto : peek (exec (.goto (tx "L")) (box 0 0 [])) (fun t => t.pc) = some 7 := by decide

-- CT2; labels are case-sensitive
theorem test_goto_unknown : peek (exec (.goto (tx "l")) (box 0 0 [])) (fun t => (t.pc, faultOf t)) = some (0, some (.unresolvedLabel, .token (tx "l"))) := by decide

-- CT8
theorem test_call : peek (exec (.call (tx "L")) ({ box 0 0 [] with pc := 3 })) (fun t => (t.pc, t.stack)) = some (7, [4]) := by decide

-- CT9
theorem test_call_unknown : peek (exec (.call (tx "nowhere")) (box 0 0 [])) (fun t => (t.stack, faultOf t)) = some ([], some (.unresolvedLabel, .token (tx "nowhere"))) := by decide

-- MS2; the top stands first
theorem test_push : peek (exec (.push (tx "ACC")) (box (-3) 0 [5])) (fun t => t.stack) = some [-3, 5] := by decide

-- MS3
theorem test_push_unknown : peek (exec (.push (tx "foo")) (box 0 0 [5])) (fun t => (t.stack, faultOf t)) = some ([5], some (.invalidOperand, .token (tx "foo"))) := by decide

-- MS4
theorem test_pop : peek (exec (.pop (tx "B")) (box 0 0 [-3, 5])) (fun t => (t.regs.b, t.stack)) = some (-3, [5]) := by decide

-- MS6
theorem test_pop_literal : peek (exec (.pop (tx "7")) (box 0 0 [])) (faultOf) = some (some (.invalidRegister, .token (tx "7"))) := by decide

-- CT14
theorem test_jz : peek (exec (.jz (tx "L")) (box 0 0 [])) (fun t => t.pc) = some 7 := by decide

-- CT16
theorem test_jz_untaken_unknown : peek (exec (.jz (tx "nowhere")) (box 1 0 [])) (faultOf) = some (some (.unresolvedLabel, .token (tx "nowhere"))) := by decide

-- CT17
theorem test_jnz : peek (exec (.jnz (tx "L")) (box (-5) 0 [])) (fun t => t.pc) = some 7 := by decide

-- CT18
theorem test_jnz_untaken : peek (exec (.jnz (tx "L")) (box 0 0 [])) (fun t => t.pc) = some 1 := by decide

-- CT21
theorem test_jl : peek (exec (.jl (tx "L")) (box 2 5 [])) (fun t => t.pc) = some 7 := by decide

-- CT22
theorem test_jl_untaken : peek (exec (.jl (tx "L")) (box (-1) (-2) [])) (fun t => t.pc) = some 1 := by decide

-- CT23
theorem test_jg : peek (exec (.jg (tx "L")) (box 1 0 [])) (fun t => t.pc) = some 7 := by decide

-- CT25
theorem test_jg_untaken : peek (exec (.jg (tx "L")) (box 1 3 [])) (fun t => t.pc) = some 1 := by decide

-- LC16
theorem test_not : peek (exec (.not (tx "B")) (box 0 70000 [])) (fun t => t.regs.b) = some 61071 := by decide

-- LC18
theorem test_not_negative : peek (exec (.not (tx "B")) (box 0 (-2) [])) (fun t => t.regs.b) = some 1 := by decide

-- AR4
theorem test_set : peek (exec (.set (tx "ACC") (tx "B")) (box 0 7 [])) (fun t => t.regs.acc) = some 7 := by decide

-- AR5
theorem test_set_literal_target : peek (exec (.set (tx "5") (tx "3")) (box 0 0 [])) (faultOf) = some (some (.invalidRegister, .token (tx "5"))) := by decide

-- AR15
theorem test_add : peek (exec (.add (tx "ACC") (tx "ACC")) (box 7 0 [])) (fun t => t.regs.acc) = some 14 := by decide

-- AR16
theorem test_add_negative : peek (exec (.add (tx "B") (tx "-10")) (box 0 7 [])) (fun t => t.regs.b) = some (-3) := by decide

-- AR18
theorem test_sub : peek (exec (.sub (tx "B") (tx "5")) (box 0 2 [])) (fun t => t.regs.b) = some (-3) := by decide

-- AR21
theorem test_mul : peek (exec (.mul (tx "ACC") (tx "ACC")) (box 4294967296 0 [])) (fun t => t.regs.acc) = some 18446744073709551616 := by decide

-- AR24
theorem test_div : peek (exec (.div (tx "ACC") (tx "2")) (box (-7) 0 [])) (fun t => t.regs.acc) = some (-4) := by decide

-- AR29
theorem test_div_zero : peek (exec (.div (tx "ACC") (tx "0")) (box 7 0 [])) (fun t => (t.regs.acc, t.pc, t.steps, faultOf t)) = some (7, 0, 0, some (.divisionByZero, .none)) := by decide

-- CT5
theorem test_decjz_negative : peek (exec (.decjz (tx "B") (tx "L")) (box 0 (-1) [])) (fun t => (t.regs.b, t.pc)) = some (-2, 1) := by decide

-- CT4
theorem test_decjz_zero : peek (exec (.decjz (tx "B") (tx "L")) (box 0 0 [])) (fun t => (t.regs.b, t.pc)) = some (0, 7) := by decide

-- MS12
theorem test_load : peek (exec (.load (tx "ACC") (tx "ACC")) ({ box 260 0 [] with ram := [(4, 9)] })) (fun t => t.regs.acc) = some 9 := by decide

-- MS9
theorem test_load_negative : peek (exec (.load (tx "B") (tx "-1")) ({ box 0 0 [] with ram := [(255, 6)] })) (fun t => t.regs.b) = some 6 := by decide

-- MS11
theorem test_store : peek (exec (.store (tx "ACC") (tx "ACC")) (box 300 0 [])) (fun t => t.ram) = some [(44, 300)] := by decide

-- MS10
theorem test_store_literal : peek (exec (.store (tx "99") (tx "256")) (box 0 0 [])) (fun t => t.ram) = some [(0, 99)] := by decide

-- LC21
theorem test_cmp : peek (exec (.cmp (tx "3") (tx "10")) (box 0 0 [])) (fun t => t.regs.acc) = some (-1) := by decide

-- LC24
theorem test_cmp_reads_old : peek (exec (.cmp (tx "ACC") (tx "5")) (box 5 0 [])) (fun t => t.regs.acc) = some 0 := by decide

-- LC4
theorem test_and : peek (exec (.and (tx "ACC") (tx "7")) (box (-4) 0 [])) (fun t => t.regs.acc) = some 4 := by decide

-- LC3
theorem test_and_mask : peek (exec (.and (tx "ACC") (tx "5")) (box (-1) 0 [])) (fun t => t.regs.acc) = some 5 := by decide

-- LC6
theorem test_or : peek (exec (.or (tx "ACC") (tx "3")) (box (-8) 0 [])) (fun t => t.regs.acc) = some (-5) := by decide

-- LC7
theorem test_or_ones : peek (exec (.or (tx "ACC") (tx "-1")) (box 0 0 [])) (fun t => t.regs.acc) = some (-1) := by decide

-- LC9
theorem test_xor : peek (exec (.xor (tx "ACC") (tx "5")) (box (-4) 0 [])) (fun t => t.regs.acc) = some (-7) := by decide

-- LC10
theorem test_xor_ones : peek (exec (.xor (tx "ACC") (tx "5")) (box (-1) 0 [])) (fun t => t.regs.acc) = some (-6) := by decide

-- SD2
theorem test_readsensor : peek (exec (.readsensor (tx "ACC") (tx "ELAPSED")) ({ box 0 0 [] with running := true, elapsedTime := 4 })) (fun t => (t.regs.acc, t.elapsedTime)) = some (4, 5) := by decide

-- SD3, with a host that substitutes a source whose second value is 6
theorem test_readsensor_external : peek (exec (.readsensor (tx "ACC") (tx "ext1")) ({ box 0 0 [] with params := { Config.placeholderParams with ext1 := ⟨0, [5, 6], none⟩ }, io := { HostIO.fresh with drawn1 := 1 } })) (fun t => (t.regs.acc, t.io.drawn1)) = some (6, 2) := by decide

/-! ### The cycle -/

-- P5: the record latched by DIV at index 3
theorem test_error_record :
    peek (step { machine [.iniciar, .status, .status, .div (tx "ACC") (tx "B"), .halt] [] with pc := 3 })
      (fun t => t.fault) =
      some (some ⟨.divisionByZero, .none, some .div, some [tx "ACC", tx "B"], 3⟩) := by decide

-- EL1, EL2
theorem test_step_out_of_range :
    peek (step { State.reset with running := true, elapsedTime := 3 })
      (fun t => (t.halted, t.running, t.elapsedTime, t.steps)) = some (true, true, 3, 0) := by decide

-- EL6
theorem test_run_budget :
    let out := runFor (some 2) 3 (machine [.goto (tx "L")] [(tx "L", 0)])
    out.2.steps = 2 ∧ out.2.pc = 0 ∧ faultOf out.2 = some (.stepLimitExceeded, .budget 2) := by decide

-- EL10, EL11, with one instruction instead of two
theorem test_run_budget_at_end :
    (runFor (some 1) 5 (machine [.set (tx "ACC") (tx "1")] [])).2.halted = false ∧
      (runFor (some 2) 5 (machine [.set (tx "ACC") (tx "1")] [])).1 = some .ok := by decide

-- the word of ADD, with operands of zeros, is the instruction the next step runs
theorem test_with_fetch_word :
    step (State.reset.withFetchWord 8 0x11) = exec (.add [Char.ofNat 0] [Char.ofNat 0])
      (State.reset.withFetchWord 8 0x11) := rfl

theorem test_snapshot_stack : (snapshot (box 0 0 [-3, 5])).stack = [5, -3] := by decide

/-! ### Witnesses: states and operands that meet a statement's hypotheses, clause by clause -/

theorem witness_NumericImageRoundTrip :
    (Instr.decjz (tx "B") (tx "x:")).wf = true := by decide

theorem witness_InstructionLineRoundTrip :
    (Instr.goto (tx "x:")).wf = true := by decide

theorem witness_InstructionLineDecoding :
    tokens (tx "set ACC 5") = [tx "set", tx "ACC", tx "5"] ∧ upperText (tx "set") = Opcode.mnemonic .set ∧
      [tx "ACC", tx "5"].length = Opcode.arity .set ∧ tokens (tx "set 5") = [tx "set", tx "5"] ∧
      [tx "5"].length ≠ Opcode.arity .set ∧ tokens (tx "FOO") = [tx "FOO"] ∧
      ∀ op ∈ Opcode.all, upperText (tx "FOO") ≠ Opcode.mnemonic op := by decide

theorem witness_LabelsBindNextInstruction :
    (labelNames [tx "HALT", tx "a:"]).Nodup ∧ isLabelLine (tx "a:") = true ∧
      [tx "HALT", tx "a:"] = [tx "HALT"] ++ tx "a:" :: [] ∧
      [tx "a:", tx "a:"] = [tx "a:"] ++ tx "a:" :: [] ∧ (labelNames [tx "a:"]).Nodup ∧
      labelName (tx "a:") ∈ labelNames [tx "a:"] := by decide

theorem witness_InstructionLinesInOrder :
    [tx "HALT", tx "a:", tx "FOO"] = [tx "HALT", tx "a:"] ++ tx "FOO" :: [] ∧
      isLabelLine (tx "FOO") = false ∧ decodeLine (tx "HALT") = .ok .halt ∧
      decodeLine (tx "FOO") = .error ⟨.unknownOpcode, tx "FOO", none⟩ := by decide

theorem witness_DuplicateLabelReportedFirst :
    sourceLines (tx "a:\nHALT\na:\nFOO") = [tx "a:", tx "HALT"] ++ tx "a:" :: [tx "FOO"] ∧ isLabelLine (tx "a:") = true ∧
      (labelNames [tx "a:", tx "HALT"]).Nodup ∧ labelName (tx "a:") ∈ labelNames [tx "a:", tx "HALT"] := by decide

theorem witness_AssembledProgramIsWellFormed :
    assemble (tx "INC ACC\ny:") = .ok ([.inc (tx "ACC")], [(tx "y", 1)]) := by decide

theorem witness_GotoRule :
    LabelsUnique (box 5 3 []) ∧ BindsTo (box 5 3 []) (tx "L") 7 ∧ NoLabel (box 5 3 []) (tx "l") := by decide

theorem witness_CallRule :
    LabelsUnique (box 5 3 []) ∧ BindsTo (box 5 3 []) (tx "L") 7 ∧ NoLabel (box 5 3 []) (tx "l") := by decide

theorem witness_DecjzRule :
    (box 5 3 []).params.wf = true ∧ IsReg (box 5 3 []) (tx "SP") .sp ∧ Reads (box 5 3 []) (tx "B") 3 ∧
      Reads (box 5 3 []) (tx "-7") (-7) ∧ NoReg (box 5 3 []) (tx "5") ∧ Unreadable (box 5 3 []) (tx "sp") ∧
      LabelsUnique (box 5 3 []) ∧ BindsTo (box 5 3 []) (tx "L") 7 ∧ NoLabel (box 5 3 []) (tx "l") ∧ (box 5 3 []).regs.get .sp = 0 ∧ IsReg (box 5 3 []) (tx "B") .b ∧ (box 5 3 []).regs.get .b ≠ 0 := by decide

theorem witness_RetRule :
    (box 0 0 [-3]).stack = [-3] ∧ (box 0 0 []).stack = [] := by decide

theorem witness_JumpOnZeroRules :
    LabelsUnique (box 5 3 []) ∧ BindsTo (box 5 3 []) (tx "L") 7 ∧ NoLabel (box 5 3 []) (tx "l") ∧ (box 0 0 []).regs.get .acc = 0 ∧ (box (-1) 0 []).regs.get .acc ≠ 0 := by decide

theorem witness_JumpOnOrderRules :
    LabelsUnique (box 5 3 []) ∧ BindsTo (box 5 3 []) (tx "L") 7 ∧ NoLabel (box 5 3 []) (tx "l") ∧ (box 2 3 []).regs.get .acc < (box 2 3 []).regs.get .b ∧
      (box 4 3 []).regs.get .acc > (box 4 3 []).regs.get .b ∧
      ¬ (box 3 3 []).regs.get .acc < (box 3 3 []).regs.get .b := by decide

theorem witness_SetRule :
    (box 5 3 []).params.wf = true ∧ IsReg (box 5 3 []) (tx "SP") .sp ∧ Reads (box 5 3 []) (tx "B") 3 ∧
      Reads (box 5 3 []) (tx "-7") (-7) ∧ NoReg (box 5 3 []) (tx "5") ∧ Unreadable (box 5 3 []) (tx "sp") := by decide

theorem witness_IncRule :
    (box 5 3 []).params.wf = true ∧ IsReg (box 5 3 []) (tx "SPEED") .speed ∧ NoReg (box 5 3 []) (tx "speed") := by decide

theorem witness_DecRule :
    (box 5 3 []).params.wf = true ∧ IsReg (box 5 3 []) (tx "ACC") .acc ∧ NoReg (box 5 3 []) (tx "A") ∧
      (1 : Int) ≤ (box 1 0 []).regs.get .acc ∧ (box 0 0 []).regs.get .acc < (1 : Int) := by decide

theorem witness_AddSubMulRules :
    (box 5 3 []).params.wf = true ∧ IsReg (box 5 3 []) (tx "SP") .sp ∧ Reads (box 5 3 []) (tx "B") 3 ∧
      Reads (box 5 3 []) (tx "-7") (-7) ∧ NoReg (box 5 3 []) (tx "5") ∧ Unreadable (box 5 3 []) (tx "sp") := by decide

theorem witness_DivRule :
    (box 5 3 []).params.wf = true ∧ IsReg (box 5 3 []) (tx "SP") .sp ∧ Reads (box 5 3 []) (tx "B") 3 ∧
      Reads (box 5 3 []) (tx "-7") (-7) ∧ NoReg (box 5 3 []) (tx "5") ∧ Unreadable (box 5 3 []) (tx "sp") ∧
      Reads (box 5 3 []) (tx "-1") (-1) ∧ Reads (box 5 3 []) (tx "1") 1 ∧ Reads (box 5 3 []) (tx "-0") 0 ∧ Reads (box 5 3 []) (tx "SP") 0 := by decide

theorem witness_PushRule :
    (box 5 3 []).params.wf = true ∧ IsReg (box 5 3 []) (tx "SP") .sp ∧ Reads (box 5 3 []) (tx "B") 3 ∧
      Reads (box 5 3 []) (tx "-7") (-7) ∧ NoReg (box 5 3 []) (tx "5") ∧ Unreadable (box 5 3 []) (tx "sp") := by decide

theorem witness_PopRule :
    (box 5 3 []).params.wf = true ∧ IsReg (box 5 3 []) (tx "SP") .sp ∧ Reads (box 5 3 []) (tx "B") 3 ∧
      Reads (box 5 3 []) (tx "-7") (-7) ∧ NoReg (box 5 3 []) (tx "5") ∧ Unreadable (box 5 3 []) (tx "sp") ∧
      (box 5 3 []).stack = [] ∧ (box 5 3 [9]).stack = [9] ∧ IsReg (box 5 3 [9]) (tx "SP") .sp := by decide

theorem witness_LoadRule :
    (box 5 3 []).params.wf = true ∧ IsReg (box 5 3 []) (tx "SP") .sp ∧ Reads (box 5 3 []) (tx "B") 3 ∧
      Reads (box 5 3 []) (tx "-7") (-7) ∧ NoReg (box 5 3 []) (tx "5") ∧ Unreadable (box 5 3 []) (tx "sp") ∧
      Reads (box 5 3 []) (tx "255") 255 ∧ Reads (box 5 3 []) (tx "256") 256 ∧ Reads (box 5 3 []) (tx "-1") (-1) := by decide

theorem witness_StoreRule :
    (box 5 3 []).params.wf = true ∧ IsReg (box 5 3 []) (tx "SP") .sp ∧ Reads (box 5 3 []) (tx "B") 3 ∧
      Reads (box 5 3 []) (tx "-7") (-7) ∧ NoReg (box 5 3 []) (tx "5") ∧ Unreadable (box 5 3 []) (tx "sp") ∧
      (box 5 3 []).ram.wf ∧ Reads (box 5 3 []) (tx "255") 255 ∧ Reads (box 5 3 []) (tx "256") 256 := by decide

theorem witness_AndOrXorRules :
    (box 5 3 []).params.wf = true ∧ IsReg (box 5 3 []) (tx "SP") .sp ∧ Reads (box 5 3 []) (tx "B") 3 ∧
      Reads (box 5 3 []) (tx "-7") (-7) ∧ NoReg (box 5 3 []) (tx "5") ∧ Unreadable (box 5 3 []) (tx "sp") := by decide

theorem witness_NotRule :
    (box 5 3 []).params.wf = true ∧ IsReg (box 5 3 []) (tx "INCLINE") .incline ∧ NoReg (box 5 3 []) (tx "-1") := by decide

theorem witness_CmpRule :
    (box 5 3 []).params.wf = true ∧ IsReg (box 5 3 []) (tx "SP") .sp ∧ Reads (box 5 3 []) (tx "B") 3 ∧
      Reads (box 5 3 []) (tx "-7") (-7) ∧ NoReg (box 5 3 []) (tx "5") ∧ Unreadable (box 5 3 []) (tx "sp") ∧
      Reads (box 5 3 []) (tx "ACC") 5 ∧ Reads (box 5 3 []) (tx "2") 2 ∧ Reads (box 5 3 []) (tx "3") 3 ∧ Reads (box 5 3 []) (tx "4") 4 := by decide

theorem witness_ReadsensorRule :
    (box 5 3 []).params.wf = true ∧ IsReg (box 5 3 []) (tx "TIME") .time ∧ NoReg (box 5 3 []) (tx "time") ∧
      NamesSensor (box 5 3 []) (tx "ELAPSED") .elapsed ∧ NamesSensor (box 5 3 []) (tx "Speed") .speed ∧
      NamesSensor (box 5 3 []) (tx "incline") .incline ∧ NamesSensor (box 5 3 []) (tx "ext1") (.ext .ext1) ∧
      NamesSensor (box 5 3 []) (tx "EXT2") (.ext .ext2) ∧ NamesSensor (box 5 3 []) (tx "ext3") (.ext .ext3) ∧
      NoSensor (box 5 3 []) (tx "ext4") := by decide

theorem witness_HaltRule :
    State.reset.loadFailed = false := by decide

theorem witness_ErrorCheckOrder :
    (box 5 3 []).params.wf = true ∧
      firstError (box 5 3 []) (.div (tx "5") (tx "0")) = some ⟨.invalidRegister, .token (tx "5")⟩ ∧
      firstError (box 5 3 []) (.store (tx "x") (tx "y")) = some ⟨.invalidOperand, .token (tx "x")⟩ ∧
      firstError (box 5 3 []) (.decjz (tx "B") (tx "l")) = some ⟨.unresolvedLabel, .token (tx "l")⟩ ∧
      firstError (box 5 3 []) (.readsensor (tx "B") (tx "no")) = some ⟨.unknownSensor, .token (tx "no")⟩ ∧
      firstError (box 5 3 []) .ret = some ⟨.stackUnderflow, .none⟩ ∧
      firstError (box 5 3 []) (.div (tx "B") (tx "SP")) = some ⟨.divisionByZero, .none⟩ ∧
      firstError (box 5 3 []) .halt = none := by decide

theorem witness_FailingInstructionOnlyLatches :
    (machine [.ret] []).fault = none ∧ Active (machine [.ret] []) ∧ fetch (machine [.ret] []) = some .ret ∧
      ∃ t e, exec .ret (machine [.ret] []) = .next t ∧ t.fault = some e := ⟨rfl, by decide, rfl, _, _, rfl, rfl⟩

theorem witness_PcAdvancesUnlessRedirected :
    (box 0 0 []).fault = none ∧
      ∃ t, exec (.jz (tx "L")) (box 0 0 []) = .next t ∧ t.fault = none ∧ t.pc ≠ (box 0 0 []).pc + 1 := ⟨rfl, _, rfl, by decide, by decide⟩

theorem witness_CountersCountSteps :
    (∃ t, exec .iniciar State.reset = .next t ∧ t.fault = none) ∧
      (∃ t, step State.reset = .next t ∧ fetch State.reset = none) ∧
      (∃ t, step (machine [.ret] []) = .next t ∧ t.fault.isSome = true) ∧
      ∃ s t : State, step s = .next t ∧ s.halted = true := ⟨⟨_, rfl, rfl⟩, ⟨_, rfl, rfl⟩, ⟨_, rfl, rfl⟩, { State.reset with halted := true }, _, rfl, rfl⟩

theorem witness_OnlyNamedRegistersChange :
    (∃ t, step (machine [.inc (tx "SP")] []) = .next t ∧ t.regs.get .sp ≠ State.reset.regs.get .sp) ∧
      ∃ t, step (machine [.cmp (tx "1") (tx "2")] []) = .next t ∧ t.regs.get .acc ≠ State.reset.regs.get .acc := ⟨⟨_, rfl, by decide⟩, _, rfl, by decide⟩

theorem witness_OnlyStoreChangesRam :
    State.reset.ram.wf ∧
      ∃ t, step (machine [.store (tx "9") (tx "-1")] []) = .next t ∧ t.ram.read 255 ≠ State.reset.ram.read 255 := ⟨by decide, _, rfl, by decide⟩

theorem witness_ProgramIsReadOnly :
    ∃ t, step (machine [.store (tx "9") (tx "0")] []) = .next t := ⟨_, rfl⟩

theorem witness_RunningFlagRule :
    (∃ t, step (machine [.iniciar] []) = .next t ∧ t.running ≠ (machine [.iniciar] []).running) ∧
      (∃ t, step { machine [.parar] [] with running := true } = .next t ∧ t.running ≠ true) ∧
      Active (machine [.iniciar] []) ∧ fetch (machine [.iniciar] []) = some .iniciar ∧
      Active (machine [.parar] []) ∧ fetch (machine [.parar] []) = some .parar ∧
      Active (machine [.halt] []) ∧ fetch (machine [.halt] []) = some .halt ∧
      fetch State.reset = none ∧ (∃ t, step State.reset = .next t) ∧
      ∃ t u, exec .status State.reset = .next t ∧ exec .status { State.reset with running := true } = .next u := ⟨⟨_, rfl, by decide⟩, ⟨_, rfl, by decide⟩, by decide, rfl, by decide, rfl,
    by decide, rfl, rfl, ⟨_, rfl⟩, _, _, rfl, rfl⟩

theorem witness_HaltedFlagRule :
    (∃ t, step (machine [.halt] []) = .next t ∧ t.halted = true) ∧
      (∃ t, step State.reset = .next t ∧ t.halted = true) ∧
      ∃ s : State, s.halted = true ∧ s.loadFailed = false := ⟨⟨_, rfl, rfl⟩, ⟨_, rfl, rfl⟩, { State.reset with halted := true }, rfl, rfl⟩

theorem witness_OneSharedStack :
    LabelsUnique (box 5 3 []) ∧ BindsTo (box 5 3 []) (tx "L") 7 ∧ NoLabel (box 5 3 []) (tx "l") ∧ (box 5 3 []).params.wf = true ∧ Reads (box 5 3 []) (tx "-7") (-7) ∧ IsReg (box 5 3 []) (tx "SP") .sp := by decide

theorem witness_HostSideChangesOnlyByStatusAndReadsensor :
    Active (machine [.status] []) ∧ (∃ t, step (machine [.status] []) = .next t) ∧
      ∃ t, step (machine [.readsensor (tx "B") (tx "ext3")] []) = .next t ∧
        drawnOf t.io .ext3 ≠ drawnOf State.reset.io .ext3 := ⟨by decide, ⟨_, rfl⟩, _, rfl, by decide⟩

theorem witness_CompareThenBranch :
    (box 5 3 []).params.wf = true ∧ LabelsUnique (box 5 3 []) ∧ Reads (box 5 3 []) (tx "ACC") 5 ∧ Reads (box 5 3 []) (tx "4") 4 ∧
      BindsTo (box 5 3 []) (tx "L") 7 ∧ (box 5 0 []).regs.get .b = 0 ∧ Reads (box 5 0 []) (tx "ACC") 5 := by decide

theorem witness_StoreThenLoad :
    (box 5 3 []).params.wf = true ∧ (box 5 3 []).ram.wf ∧ Reads (box 5 3 []) (tx "9") 9 ∧ Reads (box 5 3 []) (tx "260") 260 ∧
      Reads (box 5 3 []) (tx "4") 4 ∧ IsReg (box 5 3 []) (tx "B") .b ∧ (260 : Int) % 256 = 4 % 256 ∧ Reads (box 5 3 []) (tx "-1") (-1) ∧
      (260 : Int) % 256 ≠ (-1) % 256 := by decide

theorem witness_StepRunsFetchedInstruction :
    Active (machine [.halt] []) ∧ 0 ≤ (machine [.halt] []).pc ∧
      (machine [.halt] []).program[(machine [.halt] []).pc.toNat]? = some .halt := by decide

theorem witness_StepOutOfRangeHalts :
    Active State.reset ∧ (State.reset.program.length : Int) ≤ State.reset.pc ∧ State.reset.program = [] ∧
      Active { machine [.halt] [] with pc := -1 } ∧ ({ machine [.halt] [] with pc := -1 } : State).pc < 0 := by decide

theorem witness_LatchedFaultAndFailedLoad :
    (∃ (s : State) (e : ExecError), s.fault = some e ∧ s.loadFailed = false) ∧ ∃ s : State, s.loadFailed = true := ⟨⟨faulted State.reset .ret .stackUnderflow .none, _, rfl, rfl⟩, { State.reset with loadFailed := true }, rfl⟩

theorem witness_LoadResetsAllButRam :
    (∃ r t, loadText (tx "HALT") State.reset = (r, t) ∧ assemble (tx "HALT") = .ok ([.halt], [])) ∧
      ∃ r t e, loadText (tx "FOO") State.reset = (r, t) ∧ assemble (tx "FOO") = .error e := ⟨⟨_, _, rfl, by decide⟩, _, _, ⟨.unknownOpcode, tx "FOO", none⟩, rfl, by decide⟩

/-- The invariant of a machine that is not the reset machine. -/
theorem inv_machine : Inv (machine [.inc (tx "B"), .goto (tx "L")] [(tx "L", 0)]) := by
  constructor <;> decide

theorem witness_SnapshotShowsRamAndStack : State.reset.stack = [] := rfl

theorem witness_FourConditions :
    (∃ s, Inv s ∧ s.loadFailed = false ∧ IsRunning s) ∧ IsAboutToStop State.reset ∧
      IsHalted { State.reset with halted := true } ∧ IsFaulted (faulted State.reset .ret .stackUnderflow .none) := ⟨⟨_, inv_machine, by decide, by decide⟩, by decide, by decide, by decide⟩

theorem witness_NonpositiveBudgetIsNoLimit :
    (0 : Int) ≤ 0 := by decide

theorem witness_RunHasOneEnd :
    ∃ q r t u, RunEnds none (machine [.halt] []) q t ∧ RunEnds none (machine [.halt] []) r u := ⟨_, _, _, _, ⟨2, rfl⟩, ⟨3, rfl⟩⟩

theorem witness_PositiveBudgetAlwaysReturns :
    (0 : Int) < 1 ∧ State.reset.loadFailed = false := by decide

theorem witness_StepLimitExactlyAtBudget :
    State.reset.fault = none ∧
      (∃ e t, RunEnds (some 1) (machine [.status, .halt] []) (.execErr e) t ∧ e.kind = .stepLimitExceeded) ∧
      ∃ s : State, Active s ∧ (0 : Int) < 1 ∧ 1 ≤ s.steps :=
  ⟨rfl, ⟨_, _, ⟨2, rfl⟩, rfl⟩, { State.reset with steps := 1 }, by decide⟩

theorem witness_GotoSelfHangsWithoutBudget :
    Active (machine [.goto (tx "L")] [(tx "L", 0)]) ∧ LabelsUnique (machine [.goto (tx "L")] [(tx "L", 0)]) ∧
      (machine [.goto (tx "L")] [(tx "L", 0)]).pc = (0 : Nat) ∧
      (machine [.goto (tx "L")] [(tx "L", 0)]).program[0]? = some (.goto (tx "L")) ∧
      BindsTo (machine [.goto (tx "L")] [(tx "L", 0)]) (tx "L") 0 ∧ (0 : Int) < 1 ∧
      (machine [.goto (tx "L")] [(tx "L", 0)]).steps ≤ 1 := by decide

theorem witness_ConstructedMachineMeetsInvariant :
    Config.placeholderParams.wf = true := by decide

theorem witness_StepKeepsInvariant :
    ∃ s t, Inv s ∧ step s = .next t := ⟨_, _, inv_machine, rfl⟩

theorem witness_LoadKeepsInvariant :
    ∃ s, Inv s := ⟨_, inv_machine⟩

theorem witness_RunKeepsInvariant :
    ∃ s, Inv s := ⟨_, inv_machine⟩

end Sys2Proof.Tests
end

/-!
PROOFS. The two status flags (spec/10_state.md R28, R29): what an instruction and a step do to `running` and `halted`,
and that an instruction's rule does not read `running`.
-/

namespace Sys2Proof.Machine

section
variable {i : Instr} {s t u : State}

/-! ### What an instruction does to the flags -/

/-- An effect other than that of INICIAR, PARAR and HALT leaves both flags. -/
theorem Effect.flags_eq (h : Effect s t i) (hi : i ≠ .iniciar ∧ i ≠ .parar ∧ i ≠ .halt) :
    t.running = s.running ∧ t.halted = s.halted := by
  cases i with
  | iniciar | parar | halt => simp at hi
  | status => cases h; exact ⟨rfl, rfl⟩
  | inc _ | dec _ | not _ | goto _ | call _ | push _ | jz _ | jnz _ | jl _ | jg _ =>
    obtain ⟨_, -, rfl⟩ := h
    exact ⟨rfl, rfl⟩
  | ret => obtain ⟨_, _, -, rfl⟩ := h; exact ⟨rfl, rfl⟩
  | pop _ => obtain ⟨_, _, _, -, -, rfl⟩ := h; exact ⟨rfl, rfl⟩
  | set _ _ | add _ _ | sub _ _ | mul _ _ | load _ _ | store _ _ | cmp _ _ | and _ _ | or _ _ | xor _ _ =>
    obtain ⟨_, _, -, -, rfl⟩ := h
    exact ⟨rfl, rfl⟩
  | div _ _ => obtain ⟨_, _, -, -, -, rfl⟩ := h; exact ⟨rfl, rfl⟩
  | decjz _ _ =>
    obtain ⟨_, _, -, -, rfl⟩ := h
    split_ifs <;> exact ⟨rfl, rfl⟩
  | readsensor _ _ =>
    obtain ⟨_, k, -, -, rfl⟩ := h
    rcases sensorValue_state s k with hs | ⟨_, -, hs⟩ <;> simp [hs]

/-- What an instruction that answers leaves in the flags: INICIAR, PARAR and HALT write them, which they do without a
check that could fail, and every other instruction, whether it completes or latches an error, leaves both. -/
theorem exec_flags (h : exec i s = .next t) :
    (i = .iniciar ∧ t.running = true ∧ t.halted = s.halted) ∨
      (i = .parar ∧ t.running = false ∧ t.halted = s.halted) ∨
      (i = .halt ∧ t.running = false ∧ t.halted = true) ∨
      ((i ≠ .iniciar ∧ i ≠ .parar ∧ i ≠ .halt) ∧ t.running = s.running ∧ t.halted = s.halted) := by
  by_cases hi : i ≠ .iniciar ∧ i ≠ .parar ∧ i ≠ .halt
  · refine .inr (.inr (.inr ⟨hi, ?_⟩))
    rcases exec_cases h with ⟨_, _, -, -, rfl⟩ | he
    · exact ⟨rfl, rfl⟩
    · exact he.flags_eq hi
  · obtain rfl | rfl | rfl : i = .iniciar ∨ i = .parar ∨ i = .halt := by tauto
    all_goals cases h
    · exact .inl ⟨rfl, rfl, rfl⟩
    · exact .inr (.inl ⟨rfl, rfl, rfl⟩)
    · exact .inr (.inr (.inl ⟨rfl, rfl, rfl⟩))

/-! ### What a step and a load do to the flags -/

/-- An active step with an instruction at pc executes it (R114). -/
theorem step_of_fetch (ha : Active s) (hf : fetch s = some i) : step s = exec i s := by
  obtain ⟨hload, hfault, hhalted⟩ := ha
  simp [step, cycle, hload, hfault, hhalted, hf]

/-- A step of a halted machine changes nothing (R29). -/
theorem step_of_halted (hh : s.halted = true) (hl : s.loadFailed = false) : step s = .next s := by
  simp [step, cycle, hh, hl]

/-- A step changes `running` only by an INICIAR, PARAR or HALT that it executes. -/
theorem step_running (h : step s = .next t) :
    t.running = s.running ∨ (fetch s = some .iniciar ∧ t.running = true) ∨
      ((fetch s = some .parar ∨ fetch s = some .halt) ∧ t.running = false) := by
  obtain ⟨-, ⟨-, rfl⟩ | ⟨-, -, rfl⟩ | ⟨-, -, rfl⟩ | ⟨i, -, hf, he, -⟩⟩ := step_cases h
  · exact .inl rfl
  · exact .inl rfl
  · exact .inl rfl
  · obtain ⟨rfl, hr, -⟩ | ⟨rfl, hr, -⟩ | ⟨rfl, hr, -⟩ | ⟨-, hr, -⟩ := exec_flags he
    · exact .inr (.inl ⟨hf, hr⟩)
    · exact .inr (.inr ⟨.inl hf, hr⟩)
    · exact .inr (.inr ⟨.inr hf, hr⟩)
    · exact .inl hr

/-- After an instruction the machine is halted exactly where it was before or the instruction is HALT. -/
theorem exec_halted_iff (h : exec i s = .next t) : t.halted = true ↔ s.halted = true ∨ i = .halt := by
  obtain ⟨rfl, -, hh⟩ | ⟨rfl, -, hh⟩ | ⟨rfl, -, hh⟩ | ⟨⟨-, -, hi⟩, -, hh⟩ := exec_flags h
  · simp [hh]
  · simp [hh]
  · simp [hh]
  · simp [hh, hi]

/-- A step sets `halted` exactly where no fault is latched and it executes HALT or finds pc out of range. -/
theorem step_halted_iff (h : step s = .next t) :
    t.halted = true ↔ s.halted = true ∨ (s.fault = none ∧ (fetch s = none ∨ fetch s = some .halt)) := by
  obtain ⟨-, ⟨hfault, rfl⟩ | ⟨-, hh, rfl⟩ | ⟨⟨-, hfault, -⟩, hf, rfl⟩ | ⟨i, ⟨-, hfault, -⟩, hf, he, -⟩⟩ :=
    step_cases h
  · simp [Option.ne_none_iff_isSome.mpr hfault]
  · simp [hh]
  · simp [hfault, hf]
  · simp [exec_halted_iff he, hfault, hf]

/-- A load clears `halted`, whether it succeeds or fails (R29, R271). -/
@[simp] theorem loadText_halted (text : Text) (s : State) : (loadText text s).2.halted = false := by
  unfold loadText
  split <;> rfl

/-! ### An instruction's rule does not read `running` -/

/-- The second outcome of a rule is the first but for `running` in the state it leaves. -/
def AgreeButRunning (x y : Except Raised Done) : Prop :=
  ∃ b, y = x.map fun d => { d with state := { d.state with running := b } }

/-- Rules that begin with the same check agree where their continuations do. -/
theorem AgreeButRunning.bind {α : Type} {x : Except Raised α} {f g : α → Except Raised Done}
    (h : ∀ a, AgreeButRunning (f a) (g a)) : AgreeButRunning (x >>= f) (x >>= g) := by
  cases x with
  | error e => exact ⟨false, rfl⟩
  | ok a => exact h a

/-- The same error raised. -/
theorem AgreeButRunning.error (e : Raised) : AgreeButRunning (.error e) (.error e) := ⟨false, rfl⟩

/-- States that differ in `running` alone, and the same pc written. -/
theorem AgreeButRunning.ok (s : State) (target : Option Int) (b : Bool) :
    AgreeButRunning (.ok ⟨s, target⟩) (.ok ⟨{ s with running := b }, target⟩) := ⟨b, rfl⟩

/-- The same choice made between outcomes that agree. -/
theorem AgreeButRunning.ite {c : Prop} [Decidable c] {d e d' e' : Done}
    (hd : AgreeButRunning (.ok d) (.ok d')) (he : AgreeButRunning (.ok e) (.ok e')) :
    AgreeButRunning (.ok (if c then d else e)) (.ok (if c then d' else e')) := by
  split_ifs
  · exact hd
  · exact he

/-- Where the rules agree, the states the loop makes of them differ at most in `running` and in `elapsed_time`, which
alone the end of a step computes from it (R32, R116). -/
theorem AgreeButRunning.conclude {x y : Except Raised Done} {b : Bool} (hxy : AgreeButRunning x y)
    (ht : conclude i s x = .next t) (hu : conclude i { s with running := b } y = .next u) :
    u = { t with running := u.running, elapsedTime := u.elapsedTime } := by
  obtain ⟨c, rfl⟩ := hxy
  cases x with
  | error e => cases ht; cases hu; rfl
  | ok d => cases ht; cases hu; rfl

/-- Every instruction is its rule and what the loop makes of it, and the rule does not read `running`. -/
theorem exec_agree (i : Instr) (s : State) (b : Bool) :
    ∃ x y, exec i s = conclude i s x ∧
      exec i { s with running := b } = conclude i { s with running := b } y ∧ AgreeButRunning x y := by
  cases i with
  | iniciar => exact ⟨_, _, rfl, rfl, .ok _ _ true⟩
  | parar | halt => exact ⟨_, _, rfl, rfl, .ok _ _ false⟩
  | status => exact ⟨_, _, rfl, rfl, .ok _ _ b⟩
  | inc _ | dec _ | not _ | goto _ | call _ | push _ =>
    exact ⟨_, _, rfl, rfl, .bind fun _ => .ok _ _ b⟩
  | set _ _ | add _ _ | sub _ _ | mul _ _ | load _ _ | store _ _ | cmp _ _ | and _ _ | or _ _ | xor _ _ =>
    exact ⟨_, _, rfl, rfl, .bind fun _ => .bind fun _ => .ok _ _ b⟩
  | jz _ | jnz _ | jl _ | jg _ =>
    exact ⟨_, _, rfl, rfl, .bind fun _ => .ite (.ok _ _ b) (.ok _ _ b)⟩
  | ret =>
    refine ⟨_, _, rfl, rfl, ?_⟩
    cases s.stack with
    | nil => exact .error _
    | cons v rest => exact .ok _ _ b
  | pop _ =>
    refine ⟨_, _, rfl, rfl, .bind fun r => ?_⟩
    cases s.stack with
    | nil => exact .error _
    | cons v rest => exact .ok _ _ b
  | div _ _ =>
    refine ⟨_, _, rfl, rfl, .bind fun r => .bind fun d => ?_⟩
    split_ifs
    · exact .error _
    · exact .ok _ _ b
  | decjz _ _ =>
    exact ⟨_, _, rfl, rfl, .bind fun _ => .bind fun _ => .ite (.ok _ _ b) (.ok _ _ b)⟩
  | readsensor _ _ =>
    refine ⟨_, _, rfl, rfl, .bind fun r => .bind fun k => ?_⟩
    cases k with
    | ext k => cases k <;> exact .ok _ _ b
    | elapsed | speed | incline => exact .ok _ _ b

end

/-! ### The obligations -/

/-- Settles O39: the first and third clause are what a step can do to `running`, the second the effect of the three
instructions that write it, and the last that no instruction's rule reads it. -/
theorem runningFlagRule : Obligations.RunningFlagRule := by
  refine ⟨fun s t h hne => ?_, fun s t ha h => ⟨fun hf => ?_, fun hf => ?_⟩, fun s t hf h => ?_,
    fun i s t u b ht hu => ?_⟩
  · obtain hr | ⟨hf, hr⟩ | ⟨hf, hr⟩ := step_running h
    · exact absurd hr hne
    · exact .inl ⟨hr, hf⟩
    · exact .inr ⟨hr, hf⟩
  · rw [step_of_fetch ha hf] at h
    cases h
    rfl
  · obtain hf | hf := hf <;>
      rw [step_of_fetch ha hf] at h <;>
      cases h <;>
      rfl
  · obtain hr | ⟨hf', -⟩ | ⟨hf', -⟩ := step_running h
    · exact hr
    · simp [hf] at hf'
    · simp [hf] at hf'
  · obtain ⟨x, y, hx, hy, hxy⟩ := exec_agree i s b
    exact hxy.conclude (hx ▸ ht) (hy ▸ hu)

/-- Settles O40: which steps set `halted`, that a load clears it, and that a halted step has no effect. -/
theorem haltedFlagRule : Obligations.HaltedFlagRule :=
  ⟨fun _ _ => step_halted_iff, loadText_halted, fun _ => step_of_halted⟩

end Sys2Proof.Machine

/-!
PROOFS. Pass 1 of the loader (spec/30_encoding.md R83): the table it builds while no name repeats, and where it stops.
-/

namespace Sys2Proof.Machine

section
variable {line : Text} {n : Nat} {table : LabelTable}

/-! ### The names and the count of a list of lines -/

@[simp] theorem labelNames_nil : labelNames [] = [] := rfl

@[simp] theorem labelNames_cons_of_label (h : isLabelLine line = true) (rest : List Text) :
    labelNames (line :: rest) = labelName line :: labelNames rest := by
  simp [labelNames, h]

@[simp] theorem labelNames_cons_of_instruction (h : isLabelLine line = false) (rest : List Text) :
    labelNames (line :: rest) = labelNames rest := by
  simp [labelNames, h]

@[simp] theorem instructionCount_nil : instructionCount [] = 0 := rfl

@[simp] theorem instructionCount_cons_of_label (h : isLabelLine line = true) (rest : List Text) :
    instructionCount (line :: rest) = instructionCount rest := by
  simp [instructionCount, h]

@[simp] theorem instructionCount_cons_of_instruction (h : isLabelLine line = false) (rest : List Text) :
    instructionCount (line :: rest) = instructionCount rest + 1 := by
  simp [instructionCount, h]

/-! ### One line of pass 1 -/

/-- An instruction line is counted. -/
theorem bindLabels_cons_of_instruction (h : isLabelLine line = false) (rest : List Text) :
    bindLabels n table (line :: rest) = bindLabels (n + 1) table rest := by
  simp [bindLabels, h]

/-- A label line with a new name binds it to the count. -/
theorem bindLabels_cons_of_fresh (h : isLabelLine line = true) (hn : labelName line ∉ table.map Prod.fst)
    (rest : List Text) :
    bindLabels n table (line :: rest) = bindLabels n (table ++ [(labelName line, n)]) rest := by
  simp [bindLabels, h, lookupLabel_eq_none_iff.mpr hn]

/-- A label line whose name is in the table stops the pass. -/
theorem bindLabels_cons_of_bound (h : isLabelLine line = true) (hn : labelName line ∈ table.map Prod.fst)
    (rest : List Text) :
    bindLabels n table (line :: rest) = .error ⟨.duplicateLabel, line, some (labelName line)⟩ := by
  cases hk : lookupLabel table (labelName line) with
  | none => exact absurd hn (lookupLabel_eq_none_iff.mp hk)
  | some k => simp [bindLabels, h, hk]

/-! ### The bindings of a list of lines -/

/-- Each label of the lines with the number of instruction lines before it, counted from `n`: what pass 1 adds to its
table while no name repeats (`bindLabels_append`). -/
def labelBindings (n : Nat) : List Text → LabelTable
  | [] => []
  | line :: rest =>
    if isLabelLine line then (labelName line, n) :: labelBindings n rest else labelBindings (n + 1) rest

@[simp] theorem labelBindings_nil : labelBindings n [] = [] := rfl

@[simp] theorem labelBindings_cons_of_label (h : isLabelLine line = true) (rest : List Text) :
    labelBindings n (line :: rest) = (labelName line, n) :: labelBindings n rest := by
  simp [labelBindings, h]

@[simp] theorem labelBindings_cons_of_instruction (h : isLabelLine line = false) (rest : List Text) :
    labelBindings n (line :: rest) = labelBindings (n + 1) rest := by
  simp [labelBindings, h]

/-- The bindings are of exactly the names, in order. -/
@[simp] theorem map_fst_labelBindings (n : Nat) (lines : List Text) :
    (labelBindings n lines).map Prod.fst = labelNames lines := by
  induction lines generalizing n with
  | nil => rfl
  | cons line rest ih => cases h : isLabelLine line <;> simp [h, ih]

/-- The bindings of two parts: those of the second count on from the first. -/
theorem labelBindings_append (n : Nat) (before after : List Text) :
    labelBindings n (before ++ after) =
      labelBindings n before ++ labelBindings (n + instructionCount before) after := by
  induction before generalizing n with
  | nil => rfl
  | cons line rest ih =>
    cases h : isLabelLine line with
    | false => simp [h, ih, Nat.add_assoc, Nat.add_comm 1]
    | true => simp [h, ih]

/-- A label is bound to the number of instruction lines before its line. -/
theorem mem_labelBindings (h : isLabelLine line = true) (before after : List Text) :
    (labelName line, n + instructionCount before) ∈ labelBindings n (before ++ line :: after) := by
  simp [labelBindings_append, h]

/-! ### Pass 1 over many lines -/

/-- Pass 1 goes through lines that repeat no name, counts their instruction lines and appends their bindings. -/
theorem bindLabels_append (before after : List Text) (h : (table.map Prod.fst ++ labelNames before).Nodup) :
    bindLabels n table (before ++ after) =
      bindLabels (n + instructionCount before) (table ++ labelBindings n before) after := by
  induction before generalizing n table with
  | nil => simp
  | cons line rest ih =>
    cases hl : isLabelLine line with
    | false =>
      rw [labelNames_cons_of_instruction hl] at h
      simp [bindLabels_cons_of_instruction hl, ih h, hl, Nat.add_assoc, Nat.add_comm 1]
    | true =>
      rw [labelNames_cons_of_label hl] at h
      have hfresh : labelName line ∉ table.map Prod.fst := fun hm =>
        List.disjoint_of_nodup_append h hm List.mem_cons_self
      have hrest : ((table ++ [(labelName line, n)]).map Prod.fst ++ labelNames rest).Nodup := by simpa using h
      simp [bindLabels_cons_of_fresh hl hfresh, ih hrest, hl]

/-- Pass 1 over lines that repeat no name answers their bindings. -/
theorem bindLabels_of_nodup {lines : List Text} (h : (labelNames lines).Nodup) :
    bindLabels 0 [] lines = .ok (labelBindings 0 lines) := by
  have happ := bindLabels_append (n := 0) (table := []) lines [] (by simpa using h)
  simpa [bindLabels] using happ

/-- Pass 1 stops at the first label line that repeats a name, whatever follows. -/
theorem bindLabels_of_repeated {before : List Text} (h : (labelNames before).Nodup) (hl : isLabelLine line = true)
    (hm : labelName line ∈ labelNames before) (after : List Text) :
    bindLabels 0 [] (before ++ line :: after) = .error ⟨.duplicateLabel, line, some (labelName line)⟩ := by
  rw [bindLabels_append _ _ (by simpa using h)]
  exact bindLabels_cons_of_bound hl (by simpa using hm) after

end

/-! ### The obligation -/

/-- Settles O5: without a repeated name the table is `labelBindings 0 lines`, in which the names are distinct, so a
lookup finds each label's own binding; with one, pass 1 has the earlier names in its table at the first repetition. -/
theorem labelsBindNextInstruction : Obligations.LabelsBindNextInstruction := by
  refine fun lines => ⟨fun hd => ⟨_, bindLabels_of_nodup hd, map_fst_labelBindings 0 lines, ?_⟩, ?_⟩
  · rintro before line after rfl hl
    refine lookupLabel_of_mem (by simpa using hd) ?_
    simpa using mem_labelBindings (n := 0) hl before after
  · rintro before line after rfl hl hd hm
    exact ⟨_, bindLabels_of_repeated hd hl hm after, rfl, rfl⟩

end Sys2Proof.Machine

/-!
PROOFS. A step with pc out of range (spec/40_execution_loop.md R118): when the fetch finds no instruction, and what the
step then does.
-/

namespace Sys2Proof.Machine

section
variable {s t : State}

/-- The fetch finds no instruction exactly where pc is outside `0..len(P)−1` (R27). -/
theorem fetch_eq_none_iff : fetch s = none ↔ s.pc < 0 ∨ (s.program.length : Int) ≤ s.pc := by
  unfold fetch
  split_ifs with h
  · rw [List.getElem?_eq_none_iff]
    omega
  · simp [Int.not_le.mp h]

/-- An active step with no instruction at pc halts (R118). -/
theorem step_of_fetch_none (ha : Active s) (hf : fetch s = none) : step s = .next { s with halted := true } := by
  obtain ⟨hload, hfault, hhalted⟩ := ha
  simp [step, cycle, hload, hfault, hhalted, hf]

/-- A step that answers an unlatched state returns Ok with it (R114). -/
theorem stepCall_of_step (h : step s = .next t) (ht : t.fault = none) : stepCall s = (.ok, t) := by
  simp [stepCall, returnOf, h, ht]

end

/-! ### The obligation -/

/-- Settles O46: out of range the fetch finds nothing, so the step halts, and the halted state, in which nothing is
latched, steps to itself; in the empty program every pc is out of range. -/
theorem stepOutOfRangeHalts : Obligations.StepOutOfRangeHalts := by
  refine fun s ha => ⟨fun hpc => ?_, fun hp => ?_⟩
  · have ⟨hload, hfault, _⟩ := ha
    have hidle : step { s with halted := true } = .next { s with halted := true } := step_of_halted rfl hload
    exact ⟨step_of_fetch_none ha (fetch_eq_none_iff.mpr hpc), hidle, stepCall_of_step hidle hfault⟩
  · have hpc : s.pc < 0 ∨ (s.program.length : Int) ≤ s.pc := by simpa [hp] using Int.lt_or_le s.pc 0
    exact step_of_fetch_none ha (fetch_eq_none_iff.mpr hpc)

end Sys2Proof.Machine

/-!
PROOFS. Control transfer without a condition, and the one stack (spec/41_control_transfer.md R140, R142, R143, R149):
what GOTO, CALL, RET and the two data instructions of the stack make of a state, a lemma for each path.
-/

namespace Sys2Proof.Machine

section
variable {s : State} {label value reg : Token}

/-! ### GOTO: the conditional jump whose condition holds -/

theorem exec_goto_eq_jumpIf (label : Token) (s : State) :
    exec (.goto label) s = jumpIf (.goto label) label true s := rfl

theorem exec_goto_of_bindsTo (h : LabelsUnique s) {k : Nat} (hk : BindsTo s label k) :
    exec (.goto label) s = .next (stepped s k) := by
  rw [exec_goto_eq_jumpIf, jumpIf_of_bindsTo h hk, if_pos rfl]

theorem exec_goto_of_noLabel (h : NoLabel s label) :
    exec (.goto label) s = .next (faulted s (.goto label) .unresolvedLabel (.token label)) := by
  rw [exec_goto_eq_jumpIf, jumpIf_of_noLabel h]

/-! ### CALL and RET -/

theorem exec_call_of_bindsTo (h : LabelsUnique s) {k : Nat} (hk : BindsTo s label k) :
    exec (.call label) s = .next (stepped { s with stack := (s.pc + 1) :: s.stack } k) := by
  simp [exec, execCall, target_of_bindsTo h hk, State.push, bind, Except.bind, pure, Except.pure]

theorem exec_call_of_noLabel (h : NoLabel s label) :
    exec (.call label) s = .next (faulted s (.call label) .unresolvedLabel (.token label)) := by
  simp [exec, execCall, target_of_noLabel h, bind, Except.bind]

theorem exec_ret_of_stack_cons {v : Int} {rest : List Int} (h : s.stack = v :: rest) :
    exec .ret s = .next (stepped { s with stack := rest } v) := by
  simp [exec, execRet, h]

theorem exec_ret_of_stack_nil (h : s.stack = []) :
    exec .ret s = .next (faulted s .ret .stackUnderflow .none) := by
  simp [exec, execRet, h]

/-! ### PUSH and POP, where their operands are good -/

theorem exec_push_of_reads (h : s.params.wf = true) {v : Int} (hv : Reads s value v) :
    exec (.push value) s = .next (stepped { s with stack := v :: s.stack } (s.pc + 1)) := by
  simp [exec, execPush, resolve_of_reads h hv, State.push, bind, Except.bind, pure, Except.pure]

theorem exec_pop_of_stack_cons (h : s.params.wf = true) {r : RegId} (hr : IsReg s reg r) {v : Int} {rest : List Int}
    (hs : s.stack = v :: rest) :
    exec (.pop reg) s = .next (stepped { s with regs := s.regs.set r v, stack := rest } (s.pc + 1)) := by
  simp [exec, execPop, dst_of_isReg h hr, hs, State.setReg, bind, Except.bind, pure, Except.pure]

end

/-! ### The obligations -/

/-- Settles O9: the label is bound and jumped to, or it is not and the error is latched. -/
theorem gotoRule : Obligations.GotoRule :=
  fun _ _ hu => ⟨⟨rfl, rfl⟩, fun _ => exec_goto_of_bindsTo hu, exec_goto_of_noLabel⟩

/-- Settles O11: the label is looked up before the return address is pushed, so a name that is no label pushes
nothing. -/
theorem callRule : Obligations.CallRule :=
  fun _ _ hu => ⟨⟨rfl, rfl⟩, fun _ => exec_call_of_bindsTo hu, exec_call_of_noLabel⟩

/-- Settles O12: the two forms of the stack; the value on top is not looked at. -/
theorem retRule : Obligations.RetRule :=
  ⟨⟨rfl, rfl⟩, fun _ => ⟨fun _ _ => exec_ret_of_stack_cons, exec_ret_of_stack_nil⟩⟩

/-- Settles O41: what PUSH or CALL puts on top of the stack is what RET or POP then finds there, and taking it leaves
the stack as it was. -/
theorem oneSharedStack : Obligations.OneSharedStack := by
  refine fun s hp hu => ⟨fun value v hv => ?_, fun label k reg r hk hr => ?_, fun label k hk => ?_⟩
  · exact ⟨_, _, exec_push_of_reads hp hv, exec_ret_of_stack_cons rfl, rfl, rfl⟩
  · have hpop := exec_pop_of_stack_cons (s := stepped { s with stack := (s.pc + 1) :: s.stack } k) hp hr rfl
    exact ⟨_, _, exec_call_of_bindsTo hu hk, hpop, Regs.get_set_same _ _ _, rfl, rfl⟩
  · exact ⟨_, _, exec_call_of_bindsTo hu hk, exec_ret_of_stack_cons rfl, rfl, rfl, rfl⟩

end Sys2Proof.Machine

/-!
PROOFS. Exact arithmetic (spec/42_arithmetic.md R161, R163 to R166): an instruction that is one of the two shared
shapes has the rule of its shape, and DIV, which has a shape of its own, a lemma for each path.
-/

namespace Sys2Proof.Machine

/-! ### The rule of a shared shape -/

/-- An instruction of the shape `x[r] <- f(x[r])` has the rule of `f`'s result. -/
theorem dstRule_of_unaryOp {mk : Token → Instr} {code : Nat} {f : Int → Int} {result : Int → Int → Prop}
    (henc : ∀ reg, HasEncoding (mk reg) code [.dst])
    (hexec : ∀ reg s, exec (mk reg) s = unaryOp (mk reg) f reg s) (hf : ∀ x, result x (f x)) :
    DstRule mk code result := by
  intro s reg hp
  rw [hexec]
  exact ⟨henc reg, fun r hr => ⟨_, hf _, unaryOp_of_isReg hp hr f⟩, fun hn => unaryOp_of_noReg hn f⟩

/-- An instruction of the shape `x[r] <- f(x[r], v)` has the rule of `f`'s result. -/
theorem dstValRule_of_binaryOp {mk : Token → Token → Instr} {code : Nat} {f : Int → Int → Int}
    {result : State → Int → Int → Int → Prop}
    (henc : ∀ reg value, HasEncoding (mk reg value) code [.dst, .val])
    (hexec : ∀ reg value s, exec (mk reg value) s = binaryOp (mk reg value) f reg value s)
    (hf : ∀ s x v, result s x v (f x v)) : DstValRule mk code result := by
  intro s reg value hp
  rw [hexec]
  exact ⟨henc reg value, fun r v hr hv => ⟨_, hf _ _ _, binaryOp_of_reads hp hr hv f⟩,
    fun hn => binaryOp_of_noReg hn f, fun r hr hv => binaryOp_of_unreadable hp hr hv f⟩

/-! ### The floor quotient -/

/-- By a positive divisor: `floorDiv a d` is the `w` with `w ≤ a/d < w + 1` (R168). -/
theorem floorDiv_bounds_of_pos (a : Int) {d : Int} (hd : 0 < d) :
    floorDiv a d * d ≤ a ∧ a < (floorDiv a d + 1) * d := by
  have hrem : floorDiv a d * d + a.fmod d = a := Int.fdiv_mul_add_fmod a d
  have hnonneg : 0 ≤ a.fmod d := Int.fmod_nonneg_of_pos a hd
  exact ⟨by omega, Int.lt_fdiv_add_one_mul_self a hd⟩

/-- The quotient does not change where both signs do. -/
theorem floorDiv_neg_neg (a d : Int) : floorDiv (-a) (-d) = floorDiv a d := Int.neg_fdiv_neg a d

/-- By a negative divisor the two inequalities, multiplied by it, turn round (R168). -/
theorem floorDiv_bounds_of_neg (a : Int) {d : Int} (hd : d < 0) :
    a ≤ floorDiv a d * d ∧ (floorDiv a d + 1) * d < a := by
  have hneg := floorDiv_bounds_of_pos (-a) (Int.neg_pos_of_neg hd)
  rw [floorDiv_neg_neg, mul_neg, mul_neg] at hneg
  exact ⟨Int.neg_le_neg_iff.mp hneg.1, Int.neg_lt_neg_iff.mp hneg.2⟩

/-! ### The paths of DIV -/

section
variable {s : State} {reg value : Token}

theorem exec_div_of_reads (h : s.params.wf = true) {r : RegId} (hr : IsReg s reg r) {d : Int}
    (hd : Reads s value d) (hne : d ≠ 0) :
    exec (.div reg value) s =
      .next (stepped { s with regs := s.regs.set r (floorDiv (s.regs.get r) d) } (s.pc + 1)) := by
  simp [exec, execDiv, dst_of_isReg h hr, resolve_of_reads h hd, hne, State.setReg, bind, Except.bind, pure,
    Except.pure]

theorem exec_div_of_reads_zero (h : s.params.wf = true) {r : RegId} (hr : IsReg s reg r) (hd : Reads s value 0) :
    exec (.div reg value) s = .next (faulted s (.div reg value) .divisionByZero .none) := by
  simp [exec, execDiv, dst_of_isReg h hr, resolve_of_reads h hd, bind, Except.bind, throw, throwThe,
    MonadExceptOf.throw]

theorem exec_div_of_noReg (h : NoReg s reg) :
    exec (.div reg value) s = .next (faulted s (.div reg value) .invalidRegister (.token reg)) := by
  simp [exec, execDiv, dst_of_noReg h, bind, Except.bind]

theorem exec_div_of_unreadable (h : s.params.wf = true) {r : RegId} (hr : IsReg s reg r) (hv : Unreadable s value) :
    exec (.div reg value) s = .next (faulted s (.div reg value) .invalidOperand (.token value)) := by
  simp [exec, execDiv, dst_of_isReg h hr, resolve_of_unreadable hv, bind, Except.bind]

end

/-! ### The obligations -/

/-- Settles O16: INC is the one-operand shape with the successor. -/
theorem incRule : Obligations.IncRule :=
  dstRule_of_unaryOp (f := fun x => x + 1) (fun _ => ⟨rfl, rfl⟩) (fun _ _ => rfl) fun _ => rfl

/-- Settles O18: ADD, SUB and MUL are the two-operand shape with the three operations of ℤ. -/
theorem addSubMulRules : Obligations.AddSubMulRules :=
  ⟨dstValRule_of_binaryOp (f := fun x v => x + v) (fun _ _ => ⟨rfl, rfl⟩) (fun _ _ _ => rfl) fun _ _ _ => rfl,
    dstValRule_of_binaryOp (f := fun x v => x - v) (fun _ _ => ⟨rfl, rfl⟩) (fun _ _ _ => rfl) fun _ _ _ => rfl,
    dstValRule_of_binaryOp (f := fun x v => x * v) (fun _ _ => ⟨rfl, rfl⟩) (fun _ _ _ => rfl) fun _ _ _ => rfl⟩

/-- Settles O19: the operands are read, a divisor 0 raises, and any other gives `floorDiv`, whose bounds are those
asked for either sign of the divisor. -/
theorem divRule : Obligations.DivRule := by
  refine fun s reg value hp => ⟨⟨rfl, rfl⟩, fun r d hr hd hne => ?_, fun r => exec_div_of_reads_zero hp,
    exec_div_of_noReg, fun r => exec_div_of_unreadable hp⟩
  exact ⟨floorDiv (s.regs.get r) d, floorDiv_bounds_of_pos _, floorDiv_bounds_of_neg _,
    exec_div_of_reads hp hr hd hne⟩

end Sys2Proof.Machine

/-!
PROOFS. Stack and memory access (spec/43_memory_stack.md R180 to R183): the error paths of PUSH and POP, LOAD as the
two-operand shape over the RAM it reads, and STORE, a lemma for each path.
-/

namespace Sys2Proof.Machine

section
variable {s : State} {reg value addr : Token}

/-! ### PUSH and POP, where an operand or the stack is not good -/

theorem exec_push_of_unreadable (h : Unreadable s value) :
    exec (.push value) s = .next (faulted s (.push value) .invalidOperand (.token value)) := by
  simp [exec, execPush, resolve_of_unreadable h, bind, Except.bind]

theorem exec_pop_of_noReg (h : NoReg s reg) :
    exec (.pop reg) s = .next (faulted s (.pop reg) .invalidRegister (.token reg)) := by
  simp [exec, execPop, dst_of_noReg h, bind, Except.bind]

theorem exec_pop_of_stack_nil (h : s.params.wf = true) {r : RegId} (hr : IsReg s reg r) (hs : s.stack = []) :
    exec (.pop reg) s = .next (faulted s (.pop reg) .stackUnderflow .none) := by
  simp [exec, execPop, dst_of_isReg h hr, hs, bind, Except.bind, throw, throwThe, MonadExceptOf.throw]

/-! ### LOAD: the two-operand shape whose result is the word addressed, whatever the register held -/

theorem exec_load_eq_binaryOp (reg addr : Token) (s : State) :
    exec (.load reg addr) s =
      binaryOp (.load reg addr) (fun _ a => s.ram.read (effectiveAddress a)) reg addr s := rfl

/-! ### STORE -/

theorem exec_store_of_reads (h : s.params.wf = true) {v a : Int} (hv : Reads s value v) (ha : Reads s addr a) :
    exec (.store value addr) s =
      .next (stepped { s with ram := s.ram.write (effectiveAddress a) v } (s.pc + 1)) := by
  simp [exec, execStore, resolve_of_reads h hv, resolve_of_reads h ha, State.setRam, bind, Except.bind, pure,
    Except.pure]

theorem exec_store_of_unreadable_value (hv : Unreadable s value) :
    exec (.store value addr) s = .next (faulted s (.store value addr) .invalidOperand (.token value)) := by
  simp [exec, execStore, resolve_of_unreadable hv, bind, Except.bind]

theorem exec_store_of_unreadable_addr (h : s.params.wf = true) {v : Int} (hv : Reads s value v)
    (ha : Unreadable s addr) :
    exec (.store value addr) s = .next (faulted s (.store value addr) .invalidOperand (.token addr)) := by
  simp [exec, execStore, resolve_of_reads h hv, resolve_of_unreadable ha, bind, Except.bind]

end

/-! ### The obligations -/

/-- Settles O20: the operand reads and its value goes on the stack, or it does not and the error is latched. -/
theorem pushRule : Obligations.PushRule :=
  fun _ _ hp => ⟨⟨rfl, rfl⟩, fun _ => exec_push_of_reads hp, exec_push_of_unreadable⟩

/-- Settles O21: the register is looked up before the stack is looked at, so the two forms of the stack matter only
where a register is named. -/
theorem popRule : Obligations.PopRule :=
  fun _ _ hp => ⟨⟨rfl, rfl⟩, fun _ _ _ hr => exec_pop_of_stack_cons hp hr, exec_pop_of_noReg,
    fun _ => exec_pop_of_stack_nil hp⟩

/-- Settles O22: LOAD is the two-operand shape, and the effective address it reads at is the residue. -/
theorem loadRule : Obligations.LoadRule := by
  intro s reg addr hp
  rw [exec_load_eq_binaryOp]
  refine ⟨⟨rfl, rfl⟩, fun r a hr ha => ?_, fun hn => binaryOp_of_noReg hn _,
    fun r hr ha => binaryOp_of_unreadable hp hr ha _⟩
  exact ⟨_, ⟨effectiveAddress a, effectiveAddress_eq a, rfl⟩, binaryOp_of_reads hp hr ha _⟩

/-- Settles O23: the RAM left is the one write's, which reads as the value at the residue and as before elsewhere. -/
theorem storeRule : Obligations.StoreRule := by
  refine fun s value addr hp hram => ⟨⟨rfl, rfl⟩, fun v a hv ha => ?_, exec_store_of_unreadable_value,
    fun v => exec_store_of_unreadable_addr hp⟩
  exact ⟨_, exec_store_of_reads hp hv ha, effectiveAddress_eq a, fun b => Memory.read_write hram _ b v⟩

end Sys2Proof.Machine

/-!
PROOFS. NOT and CMP (spec/44_logic_compare.md R203, R204): NOT as the one-operand shape over its residue form, run once
and run twice, and CMP, which writes ACC whatever its operands name, a lemma for each path.
-/

namespace Sys2Proof.Machine

/-! ### The two results in ℤ -/

/-- The complement within 0..65535 of such a complement is the value's residue (R203). -/
theorem notMasked_notMasked (x : Int) : notMasked (notMasked x) = x % 65536 := by
  rw [notMasked_eq, notMasked_eq]
  omega

theorem notMasked_mem_range (x : Int) : 0 ≤ notMasked x ∧ notMasked x ≤ 65535 := by
  rw [notMasked_eq]
  omega

/-- The sign of a difference says how its two terms compare (R204). -/
theorem cmpResult_eq (u w : Int) : cmpResult u w = if u < w then -1 else if u = w then 0 else 1 := by
  simp only [cmpResult, sign, sub_neg, sub_eq_zero]

section
variable {s : State} {reg left right : Token}

/-! ### NOT -/

theorem exec_not_eq_unaryOp (reg : Token) (s : State) :
    exec (.not reg) s = unaryOp (.not reg) notMasked reg s := rfl

/-- What a second NOT needs of the first: the same parameters, and the result in the register. -/
theorem exec_not_of_isReg (h : s.params.wf = true) {r : RegId} (hr : IsReg s reg r) :
    ∃ t, exec (.not reg) s = .next t ∧ t.params = s.params ∧ t.regs.get r = notMasked (s.regs.get r) :=
  ⟨_, unaryOp_of_isReg h hr notMasked, rfl, Regs.get_set_same _ _ _⟩

/-! ### CMP -/

theorem exec_cmp_of_reads (h : s.params.wf = true) {u w : Int} (hu : Reads s left u) (hw : Reads s right w) :
    exec (.cmp left right) s =
      .next (stepped { s with regs := s.regs.set .acc (cmpResult u w) } (s.pc + 1)) := by
  simp [exec, execCmp, resolve_of_reads h hu, resolve_of_reads h hw, State.setReg, bind, Except.bind, pure,
    Except.pure]

theorem exec_cmp_of_unreadable_left (hu : Unreadable s left) :
    exec (.cmp left right) s = .next (faulted s (.cmp left right) .invalidOperand (.token left)) := by
  simp [exec, execCmp, resolve_of_unreadable hu, bind, Except.bind]

theorem exec_cmp_of_unreadable_right (h : s.params.wf = true) {u : Int} (hu : Reads s left u)
    (hw : Unreadable s right) :
    exec (.cmp left right) s = .next (faulted s (.cmp left right) .invalidOperand (.token right)) := by
  simp [exec, execCmp, resolve_of_reads h hu, resolve_of_unreadable hw, bind, Except.bind]

end

/-! ### The obligations -/

/-- Settles O25: NOT is the one-operand shape, and the state the first NOT leaves has the parameters of the one before
it, so the token names the same register in the second. -/
theorem notRule : Obligations.NotRule := by
  refine ⟨dstRule_of_unaryOp (fun _ => ⟨rfl, rfl⟩) exec_not_eq_unaryOp notMasked_eq, fun s reg r hp hr => ?_⟩
  obtain ⟨t, ht, hparams, honce⟩ := exec_not_of_isReg hp hr
  have hreg : IsReg t reg r := by rwa [IsReg, hparams]
  obtain ⟨u, hu, -, htwice⟩ := exec_not_of_isReg (by rwa [hparams]) hreg
  obtain ⟨hnonneg, hle⟩ := notMasked_mem_range (s.regs.get r)
  rw [honce, notMasked_notMasked] at htwice
  exact ⟨t, u, ht, hu, honce ▸ hnonneg, honce ▸ hle, htwice⟩

/-- Settles O26: both operands are read from the one state before ACC is written, the left one first, and the sign of
the difference is the comparison. -/
theorem cmpRule : Obligations.CmpRule := by
  refine fun s left right hp => ⟨⟨rfl, rfl⟩, fun u w hu hw => ?_, exec_cmp_of_unreadable_left,
    fun u => exec_cmp_of_unreadable_right hp⟩
  rw [exec_cmp_of_reads hp hu hw, cmpResult_eq]

end Sys2Proof.Machine

/-!
PROOFS. Device control (spec/45_sensor_device.md R224, R225, R227): the end of a step by `running`, which INICIAR, PARAR
and HALT write before it is read, and the next state of each of the three.
-/

namespace Sys2Proof.Machine

section
variable {s : State}

/-! ### The end of a step, by `running` (R116) -/

theorem stepped_of_running (h : s.running = true) (pc : Int) :
    stepped s pc = { s with pc := pc, steps := s.steps + 1, elapsedTime := s.elapsedTime + 1 } := by
  simp [stepped, h]

theorem stepped_of_not_running (h : s.running = false) (pc : Int) :
    stepped s pc = { s with pc := pc, steps := s.steps + 1 } := by
  simp [stepped, h]

end

/-! ### The three instructions: no check, one write, then the end of the step -/

theorem exec_iniciar_eq (s : State) :
    exec .iniciar s = .next (stepped { s with running := true } (s.pc + 1)) :=
  conclude_advance .iniciar s _

theorem exec_parar_eq (s : State) :
    exec .parar s = .next (stepped { s with running := false } (s.pc + 1)) :=
  conclude_advance .parar s _

theorem exec_halt_eq (s : State) :
    exec .halt s = .next (stepped { s with running := false, halted := true } (s.pc + 1)) :=
  conclude_advance .halt s _

/-! ### The obligations -/

/-- Settles O28: the end of the step reads `running` as the instruction has just written it. -/
theorem iniciarPararRules : Obligations.IniciarPararRules := by
  refine ⟨⟨rfl, rfl⟩, ⟨rfl, rfl⟩, fun s => ⟨?_, ?_⟩⟩
  · rw [exec_iniciar_eq, stepped_of_running rfl]
  · rw [exec_parar_eq, stepped_of_not_running rfl]

/-- Settles O30: HALT's own step finds `running` false already, and the state it leaves is halted, where a step changes
nothing. -/
theorem haltRule : Obligations.HaltRule := by
  refine ⟨⟨rfl, rfl⟩, fun s => ⟨_, exec_halt_eq s, stepped_of_not_running rfl _, fun hload => ?_⟩⟩
  exact step_of_halted rfl hload

end Sys2Proof.Machine

/-!
PROOFS. The numeric image of an instruction (spec/30_encoding.md R82; assumption 5): each part of the decoder reads back
what its part of the encoder wrote, and leaves the bytes after it.
-/

namespace Sys2Proof

/-! ### A character word -/

theorem isValidChar_toNat (c : Char) : c.toNat.isValidChar := c.valid

/-- The three code bytes of a character word make its character's number again. -/
theorem codePoint_of_bytes (c : Char) :
    c.toNat % 256 + 256 * (c.toNat / 256 % 256) + 65536 * (c.toNat / 65536 % 256) = c.toNat := by
  have hvalid : c.toNat < 0xd800 ∨ 0xdfff < c.toNat ∧ c.toNat < 0x110000 := isValidChar_toNat c
  omega

/-- A character word with the flag 0 is the end of its operand. -/
theorem decodeToken_last (c : Char) (rest : List Byte) :
    decodeToken (encodeChar false c ++ rest) = .ok ([c], rest) := by
  simp [encodeChar, decodeToken, codePoint_of_bytes, isValidChar_toNat]

/-- A character word with the flag 1 stands before the rest of its operand. -/
theorem decodeToken_more (c : Char) {bytes rest : List Byte} {t : Token} (h : decodeToken bytes = .ok (t, rest)) :
    decodeToken (encodeChar true c ++ bytes) = .ok (c :: t, rest) := by
  simp [encodeChar, decodeToken, codePoint_of_bytes, isValidChar_toNat, h]

/-! ### Operands -/

/-- An operand is read back; the empty one, which has no character word, is no token of R80. -/
theorem decodeToken_encodeToken {t : Token} (h : t ≠ []) (rest : List Byte) :
    decodeToken (encodeToken t ++ rest) = .ok (t, rest) := by
  induction t with
  | nil => exact absurd rfl h
  | cons c t ih =>
    cases t with
    | nil => exact decodeToken_last c rest
    | cons d t =>
      rw [encodeToken, List.append_assoc]
      exact decodeToken_more c (ih (List.cons_ne_nil d t))

/-- As many operands as were written are read back. -/
theorem decodeTokens_encodeTokens {ts : List Token} (h : ∀ t ∈ ts, t ≠ []) (rest : List Byte) :
    decodeTokens ts.length (ts.flatMap encodeToken ++ rest) = .ok (ts, rest) := by
  induction ts with
  | nil => rfl
  | cons t ts ih =>
    obtain ⟨ht, hts⟩ := List.forall_mem_cons.mp h
    simp [decodeTokens, List.append_assoc, decodeToken_encodeToken ht, ih hts]

/-! ### Well-formed operands -/

theorem Token.wf_iff {t : Token} : Token.wf t = true ↔ t ≠ [] ∧ ∀ c ∈ t, isTokenChar c = true := by
  simp [Token.wf]

theorem Instr.wf_iff {i : Instr} : i.wf = true ↔ ∀ t ∈ i.operands, Token.wf t = true := by
  simp [Instr.wf]

/-! ### The obligations -/

/-- Settles O1: the opcode number fits its five bits and names its opcode, as many operands are read as the opcode's
arity, which is how many there are, and opcode and operands make the instruction. -/
theorem numericImageRoundTrip : Obligations.NumericImageRoundTrip := by
  intro i rest hwf
  have hne : ∀ t ∈ i.operands, t ≠ [] := fun t ht => (Token.wf_iff.mp (Instr.wf_iff.mp hwf t ht)).1
  have hcode : i.opcode.code % 256 % 32 = i.opcode.code := by
    have := Opcode.code_lt i.opcode
    omega
  simp [encode, decode, hcode, Opcode.ofCode_code, ← Instr.operands_length, decodeTokens_encodeTokens hne,
    Instr.build_opcode_operands, hwf]

/-- Settles O3: a closed check of the 32 words of the opcode field. -/
theorem opcodeNumberWords : Obligations.OpcodeNumberWords := by
  unfold Obligations.OpcodeNumberWords
  decide

end Sys2Proof

/-!
PROOFS. What a step keeps and what it may change (spec/40_execution_loop.md R114 to R119): the frame of an instruction
that completes, field by field, and the invariant of the machine over a step.
-/

namespace Sys2Proof.Machine

section
variable {i : Instr} {s t : State}

/-! ### Every instruction answers -/

/-- An instruction is its rule and what the loop makes of it, which is a next state whatever the rule does. -/
theorem exec_answers (i : Instr) (s : State) : ∃ t, exec i s = .next t := by
  obtain ⟨x, _, hx, -⟩ := exec_agree i s false
  obtain ⟨_, -, hc⟩ | ⟨_, -, hc⟩ := conclude_cases i s x
  · exact ⟨_, hx.trans hc⟩
  · exact ⟨_, hx.trans hc⟩

/-! ### An instruction that latches -/

theorem Latches.fault_isSome (h : Latches s t i) : t.fault.isSome = true := by
  obtain ⟨_, _, -, -, rfl⟩ := h
  rfl

/-- No instruction reports the run's own error. -/
theorem Latches.kind_ne (h : Latches s t i) {e : ExecError} (he : t.fault = some e) :
    e.kind ≠ .stepLimitExceeded := by
  obtain ⟨_, _, hk, -, rfl⟩ := h
  cases he
  exact hk

/-! ### The frame of an instruction that completes -/

/-- An instruction that leaves the latch empty completes. -/
theorem effect_of_exec (h : exec i s = .next t) (ht : t.fault = none) : Effect s t i := by
  obtain hl | he := exec_cases h
  · have hfault := hl.fault_isSome
    simp [ht] at hfault
  · exact he

theorem Effect.fault_eq (h : Effect s t i) : t.fault = s.fault := by
  obtain ⟨u, pc, rfl, -, -, hfault, -⟩ := h.stepped_of
  exact hfault

theorem Effect.loadFailed_eq (h : Effect s t i) : t.loadFailed = s.loadFailed := by
  obtain ⟨u, pc, rfl, -, -, -, hload, -⟩ := h.stepped_of
  exact hload

theorem Effect.program_eq (h : Effect s t i) : t.program = s.program := by
  obtain ⟨u, pc, rfl, -, -, -, -, hprogram, -⟩ := h.stepped_of
  exact hprogram

theorem Effect.labels_eq (h : Effect s t i) : t.labels = s.labels := by
  obtain ⟨u, pc, rfl, -, -, -, -, -, hlabels, -⟩ := h.stepped_of
  exact hlabels

theorem Effect.params_eq (h : Effect s t i) : t.params = s.params := by
  obtain ⟨u, pc, rfl, -, -, -, -, -, -, hparams⟩ := h.stepped_of
  exact hparams

theorem Effect.steps_eq (h : Effect s t i) : t.steps = s.steps + 1 := by
  obtain ⟨u, pc, rfl, hsteps, -⟩ := h.stepped_of
  rw [stepped_steps, hsteps]

/-- The elapsed time goes by `running` as the instruction leaves it (R116). -/
theorem Effect.elapsedTime_eq (h : Effect s t i) : t.elapsedTime = s.elapsedTime + (if t.running then 1 else 0) := by
  obtain ⟨u, pc, rfl, -, helapsed, -⟩ := h.stepped_of
  rw [stepped_elapsedTime, helapsed, stepped_running]

/-- RAM is as before, or the instruction is a STORE and one word is written. -/
theorem Effect.ram_cases (h : Effect s t i) :
    t.ram = s.ram ∨ ∃ value addr v a, i = .store value addr ∧ Reads s value v ∧ Reads s addr a ∧
      t.ram = s.ram.write (effectiveAddress a) v := by
  cases i with
  | store value addr =>
    obtain ⟨v, a, hv, ha, rfl⟩ := h
    exact .inr ⟨value, addr, v, a, rfl, hv, ha, rfl⟩
  | iniciar | parar | status | halt => cases h; exact .inl rfl
  | inc _ | dec _ | not _ | goto _ | call _ | push _ | jz _ | jnz _ | jl _ | jg _ =>
    obtain ⟨_, -, rfl⟩ := h
    exact .inl rfl
  | ret => obtain ⟨_, _, -, rfl⟩ := h; exact .inl rfl
  | pop _ => obtain ⟨_, _, _, -, -, rfl⟩ := h; exact .inl rfl
  | set _ _ | add _ _ | sub _ _ | mul _ _ | load _ _ | cmp _ _ | and _ _ | or _ _ | xor _ _ =>
    obtain ⟨_, _, -, -, rfl⟩ := h
    exact .inl rfl
  | div _ _ => obtain ⟨_, _, -, -, -, rfl⟩ := h; exact .inl rfl
  | decjz _ _ =>
    obtain ⟨_, _, -, -, rfl⟩ := h
    split_ifs <;> exact .inl rfl
  | readsensor _ _ =>
    obtain ⟨_, k, -, -, rfl⟩ := h
    rcases sensorValue_state s k with hs | ⟨_, -, hs⟩ <;> simp [hs]

/-- The registers are as before, or one is written: the one the first operand names, of kind dst, or ACC by a CMP. -/
theorem Effect.regs_cases (h : Effect s t i) :
    t.regs = s.regs ∨ ∃ r v, t.regs = s.regs.set r v ∧
      ((i.opcode.kinds.head? = some .dst ∧ ∃ tok, i.operands.head? = some tok ∧ IsReg s tok r) ∨
        (i.opcode = .cmp ∧ r = .acc)) := by
  cases i with
  | iniciar | parar | status | halt => cases h; exact .inl rfl
  | goto _ | call _ | push _ | jz _ | jnz _ | jl _ | jg _ =>
    obtain ⟨_, -, rfl⟩ := h
    exact .inl rfl
  | ret => obtain ⟨_, _, -, rfl⟩ := h; exact .inl rfl
  | store _ _ => obtain ⟨_, _, -, -, rfl⟩ := h; exact .inl rfl
  | inc reg | dec reg | not reg =>
    obtain ⟨r, hr, rfl⟩ := h
    exact .inr ⟨r, _, rfl, .inl ⟨rfl, reg, rfl, hr⟩⟩
  | pop reg =>
    obtain ⟨r, v, _, hr, -, rfl⟩ := h
    exact .inr ⟨r, v, rfl, .inl ⟨rfl, reg, rfl, hr⟩⟩
  | set reg _ | add reg _ | sub reg _ | mul reg _ | load reg _ | and reg _ | or reg _ | xor reg _ =>
    obtain ⟨r, _, hr, -, rfl⟩ := h
    exact .inr ⟨r, _, rfl, .inl ⟨rfl, reg, rfl, hr⟩⟩
  | div reg _ =>
    obtain ⟨r, _, hr, -, -, rfl⟩ := h
    exact .inr ⟨r, _, rfl, .inl ⟨rfl, reg, rfl, hr⟩⟩
  | decjz reg _ =>
    obtain ⟨r, _, hr, -, rfl⟩ := h
    split_ifs
    · exact .inl rfl
    · exact .inr ⟨r, _, rfl, .inl ⟨rfl, reg, rfl, hr⟩⟩
  | cmp _ _ =>
    obtain ⟨_, _, -, -, rfl⟩ := h
    exact .inr ⟨.acc, _, rfl, .inr ⟨rfl, rfl⟩⟩
  | readsensor reg _ =>
    obtain ⟨r, _, hr, -, rfl⟩ := h
    exact .inr ⟨r, _, rfl, .inl ⟨rfl, reg, rfl, hr⟩⟩

/-- pc advances by one, or the instruction is one that jumps, and where it is a conditional one its condition holds. -/
theorem Effect.pc_cases (h : Effect s t i) :
    t.pc = s.pc + 1 ∨ i.opcode ∈ [Opcode.goto, .call, .ret] ∨
      (i.opcode = .jz ∧ s.regs.get .acc = 0) ∨ (i.opcode = .jnz ∧ s.regs.get .acc ≠ 0) ∨
      (i.opcode = .jl ∧ s.regs.get .acc < s.regs.get .b) ∨ (i.opcode = .jg ∧ s.regs.get .acc > s.regs.get .b) ∨
      ∃ reg label r, i = .decjz reg label ∧ IsReg s reg r ∧ s.regs.get r = 0 := by
  cases i with
  | goto _ | call _ | ret => exact .inr (.inl (by simp [Instr.opcode]))
  | jz _ =>
    obtain ⟨_, -, rfl⟩ := h
    by_cases hc : s.regs.get .acc = 0
    · exact .inr (.inr (.inl ⟨rfl, hc⟩))
    · exact .inl (by simp [accZero, hc])
  | jnz _ =>
    obtain ⟨_, -, rfl⟩ := h
    by_cases hc : s.regs.get .acc = 0
    · exact .inl (by simp [accNonzero, hc])
    · exact .inr (.inr (.inr (.inl ⟨rfl, hc⟩)))
  | jl _ =>
    obtain ⟨_, -, rfl⟩ := h
    by_cases hc : s.regs.get .acc < s.regs.get .b
    · exact .inr (.inr (.inr (.inr (.inl ⟨rfl, hc⟩))))
    · exact .inl (by simp [accLess, hc])
  | jg _ =>
    obtain ⟨_, -, rfl⟩ := h
    by_cases hc : s.regs.get .acc > s.regs.get .b
    · exact .inr (.inr (.inr (.inr (.inr (.inl ⟨rfl, hc⟩)))))
    · exact .inl (by simp [accGreater, hc])
  | decjz reg label =>
    obtain ⟨r, _, hr, -, rfl⟩ := h
    split_ifs with hc
    · exact .inr (.inr (.inr (.inr (.inr (.inr ⟨reg, label, r, rfl, hr, hc⟩)))))
    · exact .inl rfl
  | iniciar | parar | status | halt => cases h; exact .inl rfl
  | inc _ | dec _ | not _ | push _ => obtain ⟨_, -, rfl⟩ := h; exact .inl rfl
  | pop _ => obtain ⟨_, _, _, -, -, rfl⟩ := h; exact .inl rfl
  | set _ _ | add _ _ | sub _ _ | mul _ _ | load _ _ | store _ _ | cmp _ _ | and _ _ | or _ _ | xor _ _
  | readsensor _ _ =>
    obtain ⟨_, _, -, -, rfl⟩ := h
    exact .inl rfl
  | div _ _ => obtain ⟨_, _, -, -, -, rfl⟩ := h; exact .inl rfl

/-- The host's side is as before, or the instruction is a STATUS and one event has gone out, or it is a READSENSOR of an
external sensor and its source has been asked once. -/
theorem Effect.io_cases (h : Effect s t i) :
    (i ≠ .status ∧ t.io = s.io) ∨ (i = .status ∧ t.io = (emitStatus s).io) ∨
      ∃ reg name k, i = .readsensor reg name ∧ NamesSensor s name (.ext k) ∧ t.io = oneMoreDraw s.io k := by
  cases i with
  | status => cases h; exact .inr (.inl ⟨rfl, rfl⟩)
  | readsensor reg name =>
    obtain ⟨_, k, -, hk, rfl⟩ := h
    rcases sensorValue_state s k with hs | ⟨e, rfl, hs⟩
    · exact .inl ⟨nofun, by simp [hs]⟩
    · exact .inr (.inr ⟨reg, name, e, rfl, hk, by simp [hs]⟩)
  | iniciar | parar | halt => cases h; exact .inl ⟨nofun, rfl⟩
  | inc _ | dec _ | not _ | goto _ | call _ | push _ | jz _ | jnz _ | jl _ | jg _ =>
    obtain ⟨_, -, rfl⟩ := h
    exact .inl ⟨nofun, rfl⟩
  | ret => obtain ⟨_, _, -, rfl⟩ := h; exact .inl ⟨nofun, rfl⟩
  | pop _ => obtain ⟨_, _, _, -, -, rfl⟩ := h; exact .inl ⟨nofun, rfl⟩
  | set _ _ | add _ _ | sub _ _ | mul _ _ | load _ _ | store _ _ | cmp _ _ | and _ _ | or _ _ | xor _ _ =>
    obtain ⟨_, _, -, -, rfl⟩ := h
    exact .inl ⟨nofun, rfl⟩
  | div _ _ => obtain ⟨_, _, -, -, -, rfl⟩ := h; exact .inl ⟨nofun, rfl⟩
  | decjz _ _ =>
    obtain ⟨_, _, -, -, rfl⟩ := h
    split_ifs <;> exact .inl ⟨nofun, rfl⟩

@[simp] theorem oneMoreDraw_statusEvents (io : HostIO) (k : ExtId) :
    (oneMoreDraw io k).statusEvents = io.statusEvents := by
  cases k <;> rfl

/-- A draw counts for its own sensor alone. -/
theorem drawnOf_oneMoreDraw (io : HostIO) (j k : ExtId) :
    drawnOf (oneMoreDraw io k) j = drawnOf io j + (if j = k then 1 else 0) := by
  cases j <;> cases k <;> rfl

@[simp] theorem drawnOf_emitStatus (s : State) (k : ExtId) : drawnOf (emitStatus s).io k = drawnOf s.io k := by
  cases k <;> rfl

/-! ### The invariant over a step -/

/-- RAM stays in its form: a STORE writes one word, at an effective address. -/
theorem Effect.ram_wf (h : Effect s t i) (hram : s.ram.wf) : t.ram.wf := by
  obtain hr | ⟨_, _, v, a, -, -, -, hr⟩ := h.ram_cases
  · rwa [hr]
  · rw [hr]
    exact Memory.write_wf hram (effectiveAddress_lt a) v

/-- Halting out of range keeps the invariant, since nothing is latched. -/
theorem Inv.with_halted (h : Inv s) (ha : Active s) : Inv { s with halted := true } := by
  obtain ⟨hload, hfault, -⟩ := ha
  exact { h with
    fault_not_halted := by simp [hfault]
    fault_record := by simp [hfault]
    load_failed := by simp [hload] }

/-- Latching a record that names pc and the instruction there keeps the invariant. -/
theorem Inv.with_fault (h : Inv s) (ha : Active s) {e : ExecError} (hpc : e.pc = s.pc)
    (hopcode : e.opcode = (fetch s).map Instr.opcode) (hoperands : e.operands = (fetch s).map Instr.operands) :
    Inv (takeError s e) := by
  obtain ⟨hload, -, hhalted⟩ := ha
  exact { h with
    fault_not_halted := fun _ => hhalted
    fault_record := by rintro _ ⟨⟩; exact ⟨hpc, hopcode, hoperands⟩
    load_failed := by simp [hload] }

/-- An instruction that latches keeps the invariant. -/
theorem Latches.keeps_inv (h : Latches s t i) (hs : Inv s) (ha : Active s) (hf : fetch s = some i) : Inv t := by
  obtain ⟨k, info, -, -, rfl⟩ := h
  exact hs.with_fault ha rfl (by simp [hf]) (by simp [hf])

/-- An instruction that completes keeps the invariant. -/
theorem Effect.keeps_inv (h : Effect s t i) (hs : Inv s) (ha : Active s) : Inv t := by
  obtain ⟨hload, hfault, -⟩ := ha
  have hload' : t.loadFailed = false := h.loadFailed_eq.trans hload
  have hfault' : t.fault = none := h.fault_eq.trans hfault
  have helapsed := h.elapsedTime_eq
  exact {
    ram := h.ram_wf hs.ram
    params := h.params_eq ▸ hs.params
    elapsed_nonneg := by have := hs.elapsed_nonneg; split_ifs at helapsed <;> omega
    elapsed_le := by have := hs.elapsed_le; have := h.steps_eq; split_ifs at helapsed <;> omega
    program := h.program_eq ▸ hs.program
    labels_unique := by rw [LabelsUnique, h.labels_eq]; exact hs.labels_unique
    labels_le := by rw [h.labels_eq, h.program_eq]; exact hs.labels_le
    fault_not_halted := by simp [hfault']
    fault_record := by simp [hfault']
    load_failed := by simp [hload'] }

/-- A step keeps the invariant. -/
theorem step_keeps_inv (hs : Inv s) (h : step s = .next t) : Inv t := by
  obtain ⟨-, ⟨-, rfl⟩ | ⟨-, -, rfl⟩ | ⟨ha, -, rfl⟩ | ⟨i, ha, hf, -, hl | he⟩⟩ := step_cases h
  · exact hs
  · exact hs
  · exact hs.with_halted ha
  · exact hl.keeps_inv hs ha hf
  · exact he.keeps_inv hs ha

/-! ### What a step leaves alone -/

/-- A step that changes anything but `halted` and the latch is an instruction that completes. -/
theorem step_effect_or_frame (h : step s = .next t) :
    (∃ i, Active s ∧ fetch s = some i ∧ Effect s t i) ∨ t = { s with halted := t.halted, fault := t.fault } := by
  obtain ⟨-, ⟨-, rfl⟩ | ⟨-, -, rfl⟩ | ⟨-, -, rfl⟩ | ⟨i, ha, hf, -, ⟨_, _, -, -, rfl⟩ | he⟩⟩ := step_cases h
  · exact .inr rfl
  · exact .inr rfl
  · exact .inr rfl
  · exact .inr rfl
  · exact .inl ⟨i, ha, hf, he⟩

/-- No step changes P, the label table, the parameters or `loadFailed`. -/
theorem step_readOnly (h : step s = .next t) :
    t.program = s.program ∧ t.labels = s.labels ∧ t.params = s.params ∧ t.loadFailed = s.loadFailed := by
  obtain ⟨i, -, -, he⟩ | hframe := step_effect_or_frame h
  · exact ⟨he.program_eq, he.labels_eq, he.params_eq, he.loadFailed_eq⟩
  · rw [hframe]
    exact ⟨rfl, rfl, rfl, rfl⟩

/-- A step that latches a record returns it to the host (R114). -/
theorem stepCall_of_step_fault (h : step s = .next t) {e : ExecError} (he : t.fault = some e) :
    stepCall s = (.execErr e, t) := by
  simp [stepCall, returnOf, h, he]

@[simp] theorem loadText_pc (text : Text) (s : State) : (loadText text s).2.pc = 0 := by
  unfold loadText
  split <;> rfl

@[simp] theorem loadText_ram (text : Text) (s : State) : (loadText text s).2.ram = s.ram := by
  unfold loadText
  split <;> rfl

@[simp] theorem loadText_steps (text : Text) (s : State) : (loadText text s).2.steps = 0 := by
  unfold loadText
  split <;> rfl

@[simp] theorem loadText_elapsedTime (text : Text) (s : State) : (loadText text s).2.elapsedTime = 0 := by
  unfold loadText
  split <;> rfl

end

/-! ### The obligations -/

/-- Settles O58: a step that does nothing, one that halts, an instruction that latches and one that completes. -/
theorem stepKeepsInvariant : Obligations.StepKeepsInvariant := fun _ _ => step_keeps_inv

/-- Settles O31: every instruction is a rule under `conclude`, which answers a next state whatever the rule does. -/
theorem everyInstructionAnswers : Obligations.EveryInstructionAnswers := exec_answers

/-- Settles O33: an instruction that completes leaves the latch empty, so this one raised, and the loop took the error
from the state before. -/
theorem failingInstructionOnlyLatches : Obligations.FailingInstructionOnlyLatches := by
  intro i s t e hs h he
  obtain ⟨k, info, -, hinfo, rfl⟩ | heffect := exec_cases h
  · cases he
    exact ⟨rfl, rfl, rfl, rfl, hinfo, fun ha hf => stepCall_of_step_fault ((step_of_fetch ha hf).trans h) rfl⟩
  · simp [heffect.fault_eq, hs] at he

/-- Settles O34: what an instruction that completes can write to pc. -/
theorem pcAdvancesUnlessRedirected : Obligations.PcAdvancesUnlessRedirected := fun _ _ _ _ h ht hpc =>
  (effect_of_exec h ht).pc_cases.resolve_left hpc

/-- Settles O35: an instruction that completes ends its step with the counters; of the other steps none completes an
instruction, and only those change `halted` or the latch. -/
theorem countersCountSteps : Obligations.CountersCountSteps := by
  refine ⟨fun i s t _ h ht => ?_, fun s t h hc => ?_, fun text s =>
    ⟨loadText_steps text s, loadText_elapsedTime text s⟩⟩
  · have he := effect_of_exec h ht
    exact ⟨he.steps_eq, he.elapsedTime_eq⟩
  · obtain ⟨i, ⟨-, hfault, hhalted⟩, hf, he⟩ | hframe := step_effect_or_frame h
    · simp [hf, he.fault_eq, hfault, hhalted] at hc
    · rw [hframe]
      exact ⟨rfl, rfl⟩

/-- Settles O36: the one register an instruction that completes can write. -/
theorem onlyNamedRegistersChange : Obligations.OnlyNamedRegistersChange := by
  intro s t r h hne
  obtain ⟨i, -, hf, he⟩ | hframe := step_effect_or_frame h
  · refine ⟨i, hf, ?_⟩
    obtain hr | ⟨q, v, hr, hq⟩ := he.regs_cases
    · simp [hr] at hne
    · obtain rfl : r = q := by
        by_contra hrq
        simp [hr, Regs.get_set, hrq] at hne
      exact hq
  · rw [hframe] at hne
    exact absurd rfl hne

/-- Settles O37: the one word a STORE writes is the one that reads otherwise. -/
theorem onlyStoreChangesRam : Obligations.OnlyStoreChangesRam := by
  intro s t b hram h hne
  obtain ⟨i, -, hf, he⟩ | hframe := step_effect_or_frame h
  · obtain hr | ⟨value, addr, v, a, rfl, hv, ha, hr⟩ := he.ram_cases
    · simp [hr] at hne
    · have hread := Memory.read_write hram (effectiveAddress a) b v
      rw [← hr] at hread
      obtain rfl : b = effectiveAddress a := by
        by_contra hb
        simp [hread, hb] at hne
      exact ⟨value, addr, v, a, hf, hv, ha, rfl, by simpa using hread⟩
  · rw [hframe] at hne
    exact absurd rfl hne

/-- Settles O42: what an instruction that completes does to the host's side. STATUS has no check that could fail, so an
active step that fetches it does complete it. -/
theorem hostSideChangesOnlyByStatusAndReadsensor : Obligations.HostSideChangesOnlyByStatusAndReadsensor := by
  intro s t ha h
  by_cases hst : fetch s = some .status
  · rw [step_of_fetch ha hst] at h
    cases h
    exact ⟨by simp [hst, Done.advance], fun k hk => absurd (drawnOf_emitStatus s k) hk⟩
  · obtain ⟨i, -, hf, he⟩ | hframe := step_effect_or_frame h
    · obtain ⟨-, hio⟩ | ⟨rfl, -⟩ | ⟨reg, name, k, rfl, hk, hio⟩ := he.io_cases
      · simp [hio, hst]
      · exact absurd hf hst
      · refine ⟨by simp [hio, hst], fun j hj => ?_⟩
        rw [hio, drawnOf_oneMoreDraw] at hj ⊢
        obtain rfl : j = k := by
          by_contra hjk
          simp [hjk] at hj
        exact ⟨by simp, reg, name, hf, hk⟩
    · rw [hframe]
      exact ⟨by simp [hst], fun k hk => absurd rfl hk⟩

end Sys2Proof.Machine

/-!
PROOFS. The run (spec/40_execution_loop.md R120, R121): what one round of its loop does, where a run ends, and that a
positive budget ends every run.
-/

namespace Sys2Proof.Machine

section
variable {s t u : State} {budget : Option Int} {k : Int} {r : Return}

/-! ### A step that is stopped, and one round of the loop -/

/-- A step with a record latched changes nothing (R248). -/
theorem step_of_fault (hf : s.fault.isSome = true) (hl : s.loadFailed = false) : step s = .next s := by
  simp [step, cycle, hf, hl]

/-- After a failed load a step is refused (R31). -/
theorem step_of_loadFailed (h : s.loadFailed = true) : step s = .refused .loadFailed := by
  simp [step, cycle, h]

theorem stepCall_of_refused {q : Refusal} (h : step s = .refused q) : stepCall s = (.refused, s) := by
  simp [stepCall, h]

/-- What a round can find: a failed load, a latched record, a halted machine, the budget used up, or a step to do. -/
theorem round_cases (budget : Option Int) (s : State) :
    s.loadFailed = true ∨ (s.loadFailed = false ∧ ∃ e, s.fault = some e) ∨
      (s.loadFailed = false ∧ s.fault = none ∧ s.halted = true) ∨
      (Active s ∧ ∃ k, overBudget budget s = some k) ∨
      (Active s ∧ overBudget budget s = none ∧ ∃ t, step s = .next t) := by
  cases hload : s.loadFailed with
  | true => exact .inl rfl
  | false =>
    cases hfault : s.fault with
    | some e => exact .inr (.inl ⟨rfl, e, rfl⟩)
    | none =>
      cases hhalted : s.halted with
      | true => exact .inr (.inr (.inl ⟨rfl, rfl, rfl⟩))
      | false =>
        have ha : Active s := ⟨hload, hfault, hhalted⟩
        cases hb : overBudget budget s with
        | some k => exact .inr (.inr (.inr (.inl ⟨ha, k, rfl⟩)))
        | none =>
          cases hf : fetch s with
          | none => exact .inr (.inr (.inr (.inr ⟨ha, rfl, _, step_of_fetch_none ha hf⟩)))
          | some i =>
            obtain ⟨t, ht⟩ := exec_answers i s
            exact .inr (.inr (.inr (.inr ⟨ha, rfl, t, (step_of_fetch ha hf).trans ht⟩)))

theorem runFor_of_loadFailed (fuel : Nat) (h : s.loadFailed = true) :
    runFor budget (fuel + 1) s = (some .refused, s) := by
  simp [runFor, h]

theorem runFor_of_fault (fuel : Nat) (hload : s.loadFailed = false) {e : ExecError} (h : s.fault = some e) :
    runFor budget (fuel + 1) s = (some (.execErr e), s) := by
  simp [runFor, hload, h]

theorem runFor_of_halted (fuel : Nat) (hload : s.loadFailed = false) (hfault : s.fault = none)
    (h : s.halted = true) : runFor budget (fuel + 1) s = (some .ok, s) := by
  simp [runFor, hload, hfault, h]

theorem runFor_of_overBudget (fuel : Nat) (ha : Active s) (h : overBudget budget s = some k) :
    runFor budget (fuel + 1) s = (some (.execErr (stepLimitRecord k s)), takeError s (stepLimitRecord k s)) := by
  obtain ⟨hload, hfault, hhalted⟩ := ha
  simp [runFor, hload, hfault, hhalted, h]

theorem runFor_of_step (fuel : Nat) (ha : Active s) (hb : overBudget budget s = none) (h : step s = .next t)
    (ht : t.fault = none) : runFor budget (fuel + 1) s = runFor budget fuel t := by
  obtain ⟨hload, hfault, hhalted⟩ := ha
  simp [runFor, hload, hfault, hhalted, hb, stepCall_of_step h ht]

theorem runFor_of_step_fault (fuel : Nat) (ha : Active s) (hb : overBudget budget s = none) (h : step s = .next t)
    {e : ExecError} (ht : t.fault = some e) : runFor budget (fuel + 1) s = (some (.execErr e), t) := by
  obtain ⟨hload, hfault, hhalted⟩ := ha
  simp [runFor, hload, hfault, hhalted, hb, stepCall_of_step_fault h ht]

/-! ### What every run keeps -/

/-- What every step and the budget's latch keep, every run keeps, wherever it is cut. -/
theorem runFor_keeps {P : State → Prop} (hstep : ∀ s t, P s → step s = .next t → P t)
    (hlatch : ∀ s k, P s → Active s → P (takeError s (stepLimitRecord k s))) (budget : Option Int) (fuel : Nat)
    {s : State} (h : P s) : P (runFor budget fuel s).2 := by
  induction fuel generalizing s with
  | zero => exact h
  | succ fuel ih =>
    obtain hload | ⟨hload, e, he⟩ | ⟨hload, hfault, hh⟩ | ⟨ha, k, hb⟩ | ⟨ha, hb, t, ht⟩ := round_cases budget s
    · rwa [runFor_of_loadFailed fuel hload]
    · rwa [runFor_of_fault fuel hload he]
    · rwa [runFor_of_halted fuel hload hfault hh]
    · rw [runFor_of_overBudget fuel ha hb]
      exact hlatch s k h ha
    · cases hf : t.fault with
      | none =>
        rw [runFor_of_step fuel ha hb ht hf]
        exact ih (hstep s t h ht)
      | some e =>
        rw [runFor_of_step_fault fuel ha hb ht hf]
        exact hstep s t h ht

/-! ### Where a run ends -/

/-- A run that ends does so in some round. -/
theorem runEnds_iff : RunEnds budget s r t ↔ ∃ fuel, runFor budget (fuel + 1) s = (some r, t) := by
  refine ⟨fun ⟨fuel, h⟩ => ?_, fun ⟨fuel, h⟩ => ⟨fuel + 1, h⟩⟩
  cases fuel with
  | zero => simp [runFor] at h
  | succ fuel => exact ⟨fuel, h⟩

/-- A run whose first round returns ends with what that round returns and in no other way. -/
theorem runEnds_iff_of_first_round {q : Return} (h : ∀ fuel, runFor budget (fuel + 1) s = (some q, u)) :
    RunEnds budget s r t ↔ r = q ∧ t = u := by
  simp only [runEnds_iff, h, Prod.mk.injEq, Option.some.injEq, exists_const]
  exact and_congr eq_comm eq_comm

theorem runEnds_of_loadFailed (h : s.loadFailed = true) : RunEnds budget s r t ↔ r = .refused ∧ t = s :=
  runEnds_iff_of_first_round fun fuel => runFor_of_loadFailed fuel h

theorem runEnds_of_fault (hload : s.loadFailed = false) {e : ExecError} (h : s.fault = some e) :
    RunEnds budget s r t ↔ r = .execErr e ∧ t = s :=
  runEnds_iff_of_first_round fun fuel => runFor_of_fault fuel hload h

theorem runEnds_of_halted (hload : s.loadFailed = false) (hfault : s.fault = none) (h : s.halted = true) :
    RunEnds budget s r t ↔ r = .ok ∧ t = s :=
  runEnds_iff_of_first_round fun fuel => runFor_of_halted fuel hload hfault h

theorem runEnds_of_overBudget (ha : Active s) (h : overBudget budget s = some k) :
    RunEnds budget s r t ↔ r = .execErr (stepLimitRecord k s) ∧ t = takeError s (stepLimitRecord k s) :=
  runEnds_iff_of_first_round fun fuel => runFor_of_overBudget fuel ha h

/-- A run whose first round goes on from another state ends as the run from there. -/
theorem runEnds_iff_of_goes_on (h : ∀ fuel, runFor budget (fuel + 1) s = runFor budget fuel t) :
    RunEnds budget s r u ↔ RunEnds budget t r u := by
  rw [runEnds_iff]
  simp only [h, RunEnds]

/-- A run with a step to do ends as the run from the state after it. -/
theorem runEnds_of_step (ha : Active s) (hb : overBudget budget s = none) (h : step s = .next t) :
    RunEnds budget s r u ↔ RunEnds budget t r u := by
  cases hf : t.fault with
  | none => exact runEnds_iff_of_goes_on fun fuel => runFor_of_step fuel ha hb h hf
  | some e =>
    have hload : t.loadFailed = false := (step_readOnly h).2.2.2.trans ha.1
    rw [runEnds_of_fault hload hf]
    exact runEnds_iff_of_first_round fun fuel => runFor_of_step_fault fuel ha hb h hf

/-- A round returns, whatever rounds are left, or the run goes on as one from another state. -/
theorem round_returns_or_goes_on (budget : Option Int) (s : State) :
    (∃ r t, ∀ fuel, runFor budget (fuel + 1) s = (some r, t)) ∨
      ∃ t, ∀ fuel, runFor budget (fuel + 1) s = runFor budget fuel t := by
  obtain hload | ⟨hload, e, he⟩ | ⟨hload, hfault, hh⟩ | ⟨ha, k, hb⟩ | ⟨ha, hb, t, ht⟩ := round_cases budget s
  · exact .inl ⟨_, _, fun fuel => runFor_of_loadFailed fuel hload⟩
  · exact .inl ⟨_, _, fun fuel => runFor_of_fault fuel hload he⟩
  · exact .inl ⟨_, _, fun fuel => runFor_of_halted fuel hload hfault hh⟩
  · exact .inl ⟨_, _, fun fuel => runFor_of_overBudget fuel ha hb⟩
  · cases hf : t.fault with
    | none => exact .inr ⟨t, fun fuel => runFor_of_step fuel ha hb ht hf⟩
    | some e => exact .inl ⟨_, _, fun fuel => runFor_of_step_fault fuel ha hb ht hf⟩

/-- A run has one end: two unrollings of it do the same rounds. -/
theorem runEnds_unique {q : Return} (hq : RunEnds budget s q t) (hr : RunEnds budget s r u) : q = r ∧ t = u := by
  obtain ⟨fuel, h⟩ := hq
  induction fuel generalizing s with
  | zero => simp [runFor] at h
  | succ fuel ih =>
    obtain ⟨p, v, hround⟩ | ⟨v, hround⟩ := round_returns_or_goes_on budget s
    · obtain ⟨rfl, rfl⟩ := (runEnds_iff_of_first_round hround).mp ⟨fuel + 1, h⟩
      obtain ⟨rfl, rfl⟩ := (runEnds_iff_of_first_round hround).mp hr
      exact ⟨rfl, rfl⟩
    · exact ih ((runEnds_iff_of_goes_on hround).mp hr) (hround fuel ▸ h)

/-! ### The budget -/

theorem overBudget_none (s : State) : overBudget none s = none := rfl

/-- A budget that is zero or negative is no limit (R121). -/
theorem overBudget_of_nonpos (h : k ≤ 0) (s : State) : overBudget (some k) s = none := by
  simp [overBudget, Int.not_lt.mpr h]

theorem overBudget_of_le (hk : 0 < k) (h : k ≤ s.steps) : overBudget (some k) s = some k := by
  simp [overBudget, hk, h]

theorem overBudget_of_lt (h : s.steps < k) : overBudget (some k) s = none := by
  simp [overBudget, Int.not_le.mpr h]

/-- A budget that is used up is positive and reached. -/
theorem of_overBudget {j : Int} (h : overBudget (some k) s = some j) : j = k ∧ 0 < k ∧ k ≤ s.steps := by
  by_cases hc : 0 < k ∧ k ≤ s.steps
  · simp [overBudget, hc] at h
    exact ⟨h.symm, hc⟩
  · simp [overBudget, hc] at h

/-- A positive budget that is no limit yet is not reached. -/
theorem lt_of_overBudget_none (hk : 0 < k) (h : overBudget (some k) s = none) : s.steps < k := by
  by_contra hle
  simp [overBudget_of_le hk (Int.not_lt.mp hle)] at h

/-- A run whose budget is no limit does the rounds of one without. -/
theorem runFor_of_nonpos (h : k ≤ 0) (fuel : Nat) (s : State) : runFor (some k) fuel s = runFor none fuel s := by
  induction fuel generalizing s with
  | zero => rfl
  | succ fuel ih => simp only [runFor, overBudget_of_nonpos h, overBudget_none, ih]

/-- A step of an active machine counts, or it is the last one before the run returns and does not count. -/
theorem step_progress (ha : Active s) (h : step s = .next t) :
    (t.fault = none ∧ t.steps = s.steps + 1) ∨
      ((t.halted = true ∨ t.fault.isSome = true) ∧ t.steps = s.steps) := by
  obtain ⟨-, hfault, hhalted⟩ := ha
  obtain ⟨-, ⟨hf, -⟩ | ⟨-, hh, -⟩ | ⟨-, -, rfl⟩ | ⟨i, -, -, -, ⟨_, _, -, -, rfl⟩ | he⟩⟩ := step_cases h
  · simp [hfault] at hf
  · simp [hhalted] at hh
  · exact .inr ⟨.inl rfl, rfl⟩
  · exact .inr ⟨.inr rfl, rfl⟩
  · exact .inl ⟨he.fault_eq.trans hfault, he.steps_eq⟩

/-- No step latches the run's own error. -/
theorem step_fault_kind_ne (hs : s.fault = none) (h : step s = .next t) {e : ExecError} (he : t.fault = some e) :
    e.kind ≠ .stepLimitExceeded := by
  obtain ⟨-, ⟨-, rfl⟩ | ⟨-, -, rfl⟩ | ⟨-, -, rfl⟩ | ⟨i, -, -, -, hl | heffect⟩⟩ := step_cases h
  · simp [hs] at he
  · simp [hs] at he
  · simp [hs] at he
  · exact hl.kind_ne he
  · simp [heffect.fault_eq, hs] at he

/-- A machine that is halted or has a latched record ends its run at once, as it is. -/
theorem exists_runEnds_of_final (hload : s.loadFailed = false) (h : s.halted = true ∨ s.fault.isSome = true) :
    ∃ r, RunEnds budget s r s := by
  cases hf : s.fault with
  | some e => exact ⟨_, (runEnds_of_fault hload hf).mpr ⟨rfl, rfl⟩⟩
  | none => exact ⟨_, (runEnds_of_halted hload hf (h.resolve_right (by simp [hf]))).mpr ⟨rfl, rfl⟩⟩

/-- A run with a positive budget ends: a step uses up some of what is left of it, or leads to
a state at which the run returns. -/
theorem exists_runEnds_of_pos (hk : 0 < k) (hload : s.loadFailed = false) :
    ∃ r t, RunEnds (some k) s r t ∧ t.steps ≤ max k s.steps ∧ (t.halted = true ∨ t.fault.isSome = true) := by
  induction hn : (k - s.steps).toNat using Nat.strong_induction_on generalizing s with
  | _ n ih =>
    obtain hl | ⟨-, e, he⟩ | ⟨-, hfault, hh⟩ | ⟨ha, j, hb⟩ | ⟨ha, hb, t, ht⟩ := round_cases (some k) s
    · simp [hload] at hl
    · exact ⟨_, s, (runEnds_of_fault hload he).mpr ⟨rfl, rfl⟩, le_max_right _ _, .inr (by simp [he])⟩
    · exact ⟨_, s, (runEnds_of_halted hload hfault hh).mpr ⟨rfl, rfl⟩, le_max_right _ _, .inl hh⟩
    · exact ⟨_, _, (runEnds_of_overBudget ha hb).mpr ⟨rfl, rfl⟩, le_max_right _ _, .inr rfl⟩
    · have hlt : s.steps < k := lt_of_overBudget_none hk hb
      have htload : t.loadFailed = false := (step_readOnly ht).2.2.2.trans hload
      simp only [runEnds_of_step ha hb ht]
      obtain ⟨-, hsteps⟩ | ⟨hfinal, hsteps⟩ := step_progress ha ht
      · obtain ⟨r, u, hu, hle, hfinal⟩ := ih _ (by omega) htload rfl
        exact ⟨r, u, hu, by omega, hfinal⟩
      · obtain ⟨r, hr⟩ := exists_runEnds_of_final htload hfinal
        exact ⟨r, t, hr, by omega, hfinal⟩

/-- A run that ends in StepLimitExceeded, from a machine without a fault, has latched the record at a state whose steps
have reached the budget, and they have gone no further than that. -/
theorem overBudget_of_runEnds {e : ExecError} (hfault : s.fault = none) (h : RunEnds (some k) s (.execErr e) t)
    (hkind : e.kind = .stepLimitExceeded) :
    ∃ u, Active u ∧ 0 < k ∧ u.steps = max k s.steps ∧ e = stepLimitRecord k u ∧ t = takeError u e := by
  obtain ⟨fuel, h⟩ := h
  induction fuel generalizing s with
  | zero => simp [runFor] at h
  | succ fuel ih =>
    obtain hl | ⟨-, e, he⟩ | ⟨hload, -, hh⟩ | ⟨ha, j, hb⟩ | ⟨ha, hb, v, hv⟩ := round_cases (some k) s
    · simp [runFor_of_loadFailed fuel hl] at h
    · simp [hfault] at he
    · simp [runFor_of_halted fuel hload hfault hh] at h
    · obtain ⟨rfl, hk, hle⟩ := of_overBudget hb
      rw [runFor_of_overBudget fuel ha hb] at h
      cases h
      exact ⟨s, ha, hk, (max_eq_right hle).symm, rfl, rfl⟩
    · cases hf : v.fault with
      | some e' =>
        rw [runFor_of_step_fault fuel ha hb hv hf] at h
        cases h
        exact absurd hkind (step_fault_kind_ne hfault hv hf)
      | none =>
        rw [runFor_of_step fuel ha hb hv hf] at h
        obtain ⟨u, hu, hk, hsteps, he, ht⟩ := ih hf h
        have hlt := lt_of_overBudget_none hk hb
        have hv := step_progress ha hv
        exact ⟨u, hu, hk, by omega, he, ht⟩

/-! ### A GOTO to itself -/

/-- The machine is active at a GOTO to a label bound to that very place. -/
structure SelfGoto (s : State) (label : Token) (n : Nat) : Prop where
  active : Active s
  unique : LabelsUnique s
  pc     : s.pc = n
  goto   : s.program[n]? = some (.goto label)
  bound  : BindsTo s label n

/-- Its step counts and leaves it there. -/
theorem SelfGoto.step {label : Token} {n : Nat} (h : SelfGoto s label n) :
    step s = .next (stepped s n) ∧ SelfGoto (stepped s n) label n := by
  have hf : fetch s = some (.goto label) := by simp [fetch, h.pc, h.goto]
  exact ⟨(step_of_fetch h.active hf).trans (exec_goto_of_bindsTo h.unique h.bound), { h with pc := rfl }⟩

/-- Without a budget it never returns. -/
theorem SelfGoto.runHangs {label : Token} {n : Nat} (h : SelfGoto s label n) : RunHangs none s := by
  intro fuel
  induction fuel generalizing s with
  | zero => rfl
  | succ fuel ih =>
    obtain ⟨hstep, hnext⟩ := h.step
    rw [runFor_of_step fuel h.active (overBudget_none s) hstep hnext.active.2.1]
    exact ih hnext

/-- With a budget it stops where `steps` reaches it. -/
theorem SelfGoto.runEnds {label : Token} {n : Nat} (h : SelfGoto s label n) (hk : 0 < k) (hle : s.steps ≤ k) :
    ∃ e t, RunEnds (some k) s (.execErr e) t ∧ e.kind = .stepLimitExceeded ∧ t.steps = k ∧ t.pc = n := by
  induction hm : (k - s.steps).toNat generalizing s with
  | zero =>
    have hb : overBudget (some k) s = some k := overBudget_of_le hk (by omega)
    exact ⟨_, _, (runEnds_of_overBudget h.active hb).mpr ⟨rfl, rfl⟩, rfl, by rw [takeError_steps]; omega, h.pc⟩
  | succ m ih =>
    obtain ⟨hstep, hnext⟩ := h.step
    have hb : overBudget (some k) s = none := overBudget_of_lt (by omega)
    simp only [runEnds_of_step h.active hb hstep]
    exact ih hnext (by rw [stepped_steps]; omega) (by rw [stepped_steps]; omega)

end

/-! ### The obligations -/

/-- Settles O60: a step keeps the invariant, and so does the budget's latch, whose record names pc and the instruction
there. -/
theorem runKeepsInvariant : Obligations.RunKeepsInvariant := fun budget fuel _ hs =>
  runFor_keeps (fun _ _ => step_keeps_inv) (fun _ _ h ha => h.with_fault ha rfl rfl rfl) budget fuel hs

/-- Settles O38: no step and no latch changes the fields named, so no run does, and a load writes pc and not RAM. -/
theorem programIsReadOnly : Obligations.ProgramIsReadOnly := by
  refine ⟨fun _ _ => step_readOnly, fun budget fuel s => ?_, fun text s => ⟨loadText_pc text s, loadText_ram text s⟩⟩
  refine runFor_keeps (P := fun t => t.program = s.program ∧ t.labels = s.labels ∧ t.params = s.params ∧
    t.loadFailed = s.loadFailed) (fun t u ht hstep => ?_) (fun _ _ ht _ => ht) budget fuel ⟨rfl, rfl, rfl, rfl⟩
  obtain ⟨hprogram, hlabels, hparams, hload⟩ := step_readOnly hstep
  rwa [hprogram, hlabels, hparams, hload]

/-- Settles O47: the first round of the loop, and a step's own check, find the record or the failed load. -/
theorem latchedFaultAndFailedLoad : Obligations.LatchedFaultAndFailedLoad := by
  refine fun s budget => ⟨fun e he hload => ?_, fun hload => ?_⟩
  · have hstep : step s = .next s := step_of_fault (by simp [he]) hload
    exact ⟨hstep, stepCall_of_step_fault hstep he, fun t r => runEnds_of_fault hload he⟩
  · have hstep := step_of_loadFailed hload
    exact ⟨hstep, stepCall_of_refused hstep, fun t r => runEnds_of_loadFailed hload⟩

/-- Settles O52: round for round the two runs are the same. -/
theorem nonpositiveBudgetIsNoLimit : Obligations.NonpositiveBudgetIsNoLimit := fun k s t r hk => by
  simp only [RunEnds, runFor_of_nonpos hk]

/-- Settles O53: the loop is deterministic, round by round. -/
theorem runHasOneEnd : Obligations.RunHasOneEnd := fun _ _ _ _ _ _ => runEnds_unique

/-- Settles O54: by induction on what is left of the budget. -/
theorem positiveBudgetAlwaysReturns : Obligations.PositiveBudgetAlwaysReturns := fun _ _ => exists_runEnds_of_pos

/-- Settles O55: the state at which the record was latched is active and has reached the budget; and on such a state the
first round latches it. -/
theorem stepLimitExactlyAtBudget : Obligations.StepLimitExactlyAtBudget := by
  refine ⟨fun k s t e hfault h hkind => ?_, fun k s ha hk hle => ?_⟩
  · obtain ⟨u, ⟨hload, -, hhalted⟩, hk, hsteps, rfl, rfl⟩ := overBudget_of_runEnds hfault h hkind
    exact ⟨hk, hsteps, hhalted, rfl, rfl, rfl, fun budget r v =>
      (runEnds_of_fault (s := takeError u _) hload rfl).mp⟩
  · have hends {r u} := runEnds_of_overBudget (r := r) (t := u) ha (overBudget_of_le hk hle)
    exact ⟨stepLimitRecord k s, hends.mpr ⟨rfl, rfl⟩, rfl, fun r u => hends.mp⟩

/-- Settles O56: the GOTO's step leads back to a state of the same kind, with one more step counted. -/
theorem gotoSelfHangsWithoutBudget : Obligations.GotoSelfHangsWithoutBudget := by
  intro s label k ha hu hpc hgoto hk
  have hself : SelfGoto s label k := ⟨ha, hu, hpc, hgoto, hk⟩
  exact ⟨hself.runHangs, fun budget => hself.runEnds⟩

end Sys2Proof.Machine

/-!
PROOFS. Lines and tokens (spec/30_encoding.md R70 to R74, R80, R89): the tokens of a line are tokens of R80, and a line
printed from tokens is taken as it is and read back to them.
-/

namespace Sys2Proof

/-! ### The lines of a text -/

/-- Trimming takes characters away. -/
theorem mem_of_mem_trim {line : Text} {c : Char} (h : c ∈ trim line) : c ∈ line := by
  rw [trim, List.mem_reverse] at h
  have h := List.mem_reverse.mp ((List.dropWhile_sublist _).subset h)
  exact (List.dropWhile_sublist _).subset h

/-- A line a load works on has no `;` left in it (R71). -/
theorem ne_semicolon_of_mem_sourceLines {text line : Text} (h : line ∈ sourceLines text) {c : Char} (hc : c ∈ line) :
    c ≠ ';' := by
  obtain ⟨hmem, -⟩ := List.mem_filter.mp h
  obtain ⟨raw, -, rfl⟩ := List.mem_map.mp hmem
  simpa using List.mem_takeWhile_imp (mem_of_mem_trim hc)

/-- A text without a line break is one line (R70). -/
theorem splitLines_of_no_break {text : Text} (h : ∀ c ∈ text, c ≠ '\n' ∧ c ≠ '\r') : splitLines text = [text] := by
  induction text with
  | nil => rfl
  | cons c text ih =>
    obtain ⟨⟨hn, hr⟩, htext⟩ := List.forall_mem_cons.mp h
    simp [splitLines, hn, hr, ih htext]

theorem dropWhile_of_head {p : Char → Bool} {line : Text} (h : ∀ c ∈ line.head?, p c = false) :
    line.dropWhile p = line := by
  cases line with
  | nil => rfl
  | cons c line => simp [h c rfl]

/-- A line with no space at either end is trimmed already (R72). -/
theorem trim_of_ends {line : Text} (hhead : ∀ c ∈ line.head?, isSpace c = false)
    (hlast : ∀ c ∈ line.getLast?, isSpace c = false) : trim line = line := by
  rw [trim, dropWhile_of_head hhead, dropWhile_of_head (by rwa [List.head?_reverse]), List.reverse_reverse]

/-- A text that is one line with nothing to strip or trim is that line (R70 to R72). -/
theorem sourceLines_of_plain {line : Text} (hne : line ≠ []) (hchars : ∀ c ∈ line, c ≠ '\n' ∧ c ≠ '\r' ∧ c ≠ ';')
    (hhead : ∀ c ∈ line.head?, isSpace c = false) (hlast : ∀ c ∈ line.getLast?, isSpace c = false) :
    sourceLines line = [line] := by
  have hsplit : splitLines line = [line] :=
    splitLines_of_no_break fun c hc => ⟨(hchars c hc).1, (hchars c hc).2.1⟩
  have hstrip : stripComment line = line :=
    List.takeWhile_eq_self_iff.mpr fun c hc => by simpa using (hchars c hc).2.2
  simp [sourceLines, hsplit, hstrip, trim_of_ends hhead hlast, hne]

/-! ### The tokens of a line -/

/-- The tokens of a line without `;` are tokens of R80. -/
theorem tokensFrom_wf {seen rest : Text} (hseen : ∀ c ∈ seen, isTokenChar c = true) (hrest : ∀ c ∈ rest, c ≠ ';') :
    ∀ t ∈ tokensFrom seen rest, Token.wf t = true := by
  have hread (hne : ¬ seen.isEmpty = true) : Token.wf seen.reverse = true :=
    Token.wf_iff.mpr ⟨by simpa using hne, by simpa using hseen⟩
  induction rest generalizing seen with
  | nil =>
    rw [tokensFrom]
    split_ifs with hs
    · simp
    · simpa using hread hs
  | cons c rest ih =>
    obtain ⟨hc, hrest⟩ := List.forall_mem_cons.mp hrest
    rw [tokensFrom]
    split_ifs with hsep hs
    · exact ih (by simp) hrest (by simp)
    · exact List.forall_mem_cons.mpr ⟨hread hs, ih (by simp) hrest (by simp)⟩
    · have hseen' : ∀ d ∈ c :: seen, isTokenChar d = true :=
        List.forall_mem_cons.mpr ⟨by simp [isTokenChar, hsep, hc], hseen⟩
      exact ih hseen' hrest fun _ => Token.wf_iff.mpr
        ⟨by simp, fun d hd => hseen' d (List.mem_reverse.mp hd)⟩

theorem tokens_wf {line : Text} (h : ∀ c ∈ line, c ≠ ';') : ∀ t ∈ tokens line, Token.wf t = true :=
  tokensFrom_wf (by simp) h

theorem isTokenChar_iff {c : Char} : isTokenChar c = true ↔ isSeparator c = false ∧ c ≠ ';' := by
  simp [isTokenChar]

theorem isSpace_of_isTokenChar {c : Char} (h : isTokenChar c = true) : isSpace c = false := by
  have hsep := (isTokenChar_iff.mp h).1
  simp only [isSeparator, Bool.or_eq_false_iff] at hsep
  exact hsep.1

/-- A token's character neither ends a line nor begins a comment. -/
theorem ne_break_of_isTokenChar {c : Char} (h : isTokenChar c = true) : c ≠ '\n' ∧ c ≠ '\r' ∧ c ≠ ';' := by
  have hspace := isSpace_of_isTokenChar h
  exact ⟨by rintro rfl; simp [isSpace] at hspace, by rintro rfl; simp [isSpace] at hspace, (isTokenChar_iff.mp h).2⟩

/-- Characters that are no separators are read on. -/
theorem tokensFrom_append {t : Token} (h : ∀ c ∈ t, isSeparator c = false) (seen rest : Text) :
    tokensFrom seen (t ++ rest) = tokensFrom (t.reverse ++ seen) rest := by
  induction t generalizing seen with
  | nil => rfl
  | cons c t ih =>
    obtain ⟨hc, ht⟩ := List.forall_mem_cons.mp h
    simp [tokensFrom, hc, ih ht]

/-- Separators end the token being read, if one is. -/
theorem tokensFrom_separators {tail : Text} (h : ∀ c ∈ tail, isSeparator c = true) (seen : Text) :
    tokensFrom seen tail = if seen.isEmpty then [] else [seen.reverse] := by
  induction tail generalizing seen with
  | nil => rfl
  | cons c tail ih =>
    obtain ⟨hc, htail⟩ := List.forall_mem_cons.mp h
    simp [tokensFrom, hc, ih htail]

/-- A token with one space before each of the others: what R89 prints of an instruction. -/
def spaced (t : Token) (ts : List Token) : Text := t ++ ts.flatMap (fun u => ' ' :: u)

theorem spaced_nil (t : Token) : spaced t [] = t := by simp [spaced]

theorem spaced_cons (t u : Token) (ts : List Token) : spaced t (u :: ts) = t ++ ' ' :: spaced u ts := by simp [spaced]

section
variable {t : Token} {ts : List Token}

/-- Tokens printed with spaces between them, and separators after the last, are read back. -/
theorem tokens_spaced (ht : Token.wf t = true) (hts : ∀ u ∈ ts, Token.wf u = true) {tail : Text}
    (htail : ∀ c ∈ tail, isSeparator c = true) : tokens (spaced t ts ++ tail) = t :: ts := by
  have hsep {u : Token} (hu : Token.wf u = true) : ∀ c ∈ u, isSeparator c = false := fun c hc =>
    (isTokenChar_iff.mp ((Token.wf_iff.mp hu).2 c hc)).1
  have hne {u : Token} (hu : Token.wf u = true) : u.reverse.isEmpty = false := by
    simpa using (Token.wf_iff.mp hu).1
  induction ts generalizing t with
  | nil =>
    rw [spaced_nil, tokens, tokensFrom_append (hsep ht), tokensFrom_separators htail]
    simp [(Token.wf_iff.mp ht).1]
  | cons u ts ih =>
    obtain ⟨hu, hts⟩ := List.forall_mem_cons.mp hts
    have ih := ih hu hts
    rw [tokens] at ih ⊢
    rw [spaced_cons, List.append_assoc, tokensFrom_append (hsep ht)]
    simp [tokensFrom, isSeparator, isSpace, ih, (Token.wf_iff.mp ht).1]

/-- Printed tokens hold their characters and spaces. -/
theorem mem_spaced {c : Char} (ht : Token.wf t = true) (hts : ∀ u ∈ ts, Token.wf u = true) (h : c ∈ spaced t ts) :
    c = ' ' ∨ isTokenChar c = true := by
  simp only [spaced, List.mem_append, List.mem_flatMap, List.mem_cons] at h
  obtain hc | ⟨u, hu, rfl | hc⟩ := h
  · exact .inr ((Token.wf_iff.mp ht).2 c hc)
  · exact .inl rfl
  · exact .inr ((Token.wf_iff.mp (hts u hu)).2 c hc)

theorem spaced_ne_nil (ht : Token.wf t = true) (ts : List Token) : spaced t ts ≠ [] := by
  simp [spaced, (Token.wf_iff.mp ht).1]

/-- The first character printed is that of the first token. -/
theorem head?_spaced (ht : Token.wf t = true) (ts : List Token) : (spaced t ts).head? = t.head? := by
  rw [spaced, List.head?_append_of_ne_nil _ (Token.wf_iff.mp ht).1]

/-- The last character printed is one of a token. -/
theorem getLast?_spaced {c : Char} (ht : Token.wf t = true) (hts : ∀ u ∈ ts, Token.wf u = true)
    (h : c ∈ (spaced t ts).getLast?) : isTokenChar c = true := by
  induction ts generalizing t with
  | nil =>
    rw [spaced_nil] at h
    exact (Token.wf_iff.mp ht).2 c (List.mem_of_getLast? h)
  | cons u ts ih =>
    obtain ⟨hu, hts⟩ := List.forall_mem_cons.mp hts
    refine ih hu hts ?_
    rwa [spaced_cons, List.append_cons, List.getLast?_append_of_ne_nil _ (spaced_ne_nil hu ts)] at h

end

/-! ### The line of an instruction -/

theorem Opcode.mnemonic_wf (op : Opcode) : Token.wf op.mnemonic = true := by
  cases op <;> decide

theorem Opcode.upperText_mnemonic (op : Opcode) : upperText op.mnemonic = op.mnemonic := by
  cases op <;> decide

theorem Instr.words_eq_spaced (i : Instr) : i.words = spaced i.opcode.mnemonic i.operands := rfl

/-- An instruction's line is its words, or these and a comma where they end in `:`. -/
theorem Instr.line_cases (i : Instr) :
    (isLabelLine i.words = false ∧ i.line = i.words) ∨ i.line = i.words ++ [','] := by
  cases h : isLabelLine i.words with
  | true => exact .inr (by simp [Instr.line, h])
  | false => exact .inl ⟨rfl, by simp [Instr.line, h]⟩

/-- It is no label line (R73). -/
theorem Instr.line_not_label (i : Instr) : isLabelLine i.line = false := by
  obtain ⟨h, hline⟩ | hline := i.line_cases
  · rwa [hline]
  · simp [hline, isLabelLine]

/-- Its tokens are the mnemonic and the operands (R89). -/
theorem Instr.tokens_line {i : Instr} (h : i.wf = true) : tokens i.line = i.opcode.mnemonic :: i.operands := by
  obtain ⟨-, hline⟩ | hline := i.line_cases
  · have := tokens_spaced (Opcode.mnemonic_wf i.opcode) (Instr.wf_iff.mp h) (tail := []) (by simp)
    rwa [List.append_nil, ← Instr.words_eq_spaced, ← hline] at this
  · rw [hline, Instr.words_eq_spaced]
    exact tokens_spaced (Opcode.mnemonic_wf i.opcode) (Instr.wf_iff.mp h) (by simp [isSeparator])

/-- A load takes it as the one line of its text (R70 to R72). -/
theorem Instr.sourceLines_line {i : Instr} (h : i.wf = true) : sourceLines i.line = [i.line] := by
  have hm := Opcode.mnemonic_wf i.opcode
  have hops := Instr.wf_iff.mp h
  have hne : i.words ≠ [] := spaced_ne_nil hm i.operands
  have hhead : ∀ c ∈ i.words.head?, isSpace c = false := fun c hc =>
    isSpace_of_isTokenChar ((Token.wf_iff.mp hm).2 c (List.mem_of_mem_head? (head?_spaced hm i.operands ▸ hc)))
  have hlast : ∀ c ∈ i.words.getLast?, isSpace c = false := fun c hc =>
    isSpace_of_isTokenChar (getLast?_spaced hm hops hc)
  have hchars : ∀ c ∈ i.words, c ≠ '\n' ∧ c ≠ '\r' ∧ c ≠ ';' := fun c hc =>
    (mem_spaced hm hops hc).elim (by rintro rfl; decide) ne_break_of_isTokenChar
  obtain ⟨-, hline⟩ | hline := i.line_cases
  · rw [hline]
    exact sourceLines_of_plain hne hchars hhead hlast
  · rw [hline]
    refine sourceLines_of_plain (by simp) ?_ ?_ ?_
    · simpa [or_imp, forall_and] using hchars
    · rwa [List.head?_append_of_ne_nil _ hne]
    · simp [isSpace]

end Sys2Proof

/-!
PROOFS. The loader (spec/30_encoding.md R83 to R86; spec/70_reset_and_hazards.md R271 to R273): one instruction line,
pass 2, the two passes together, and what a load leaves.
-/

namespace Sys2Proof.Machine

section
variable {line : Text} {e : LoadError} {i : Instr} {program : List Instr} {labels : LabelTable} {text : Text}

/-! ### One instruction line -/

/-- A line whose tokens are a mnemonic in any letter case and as many operands as its arity (R78). -/
theorem decodeLine_of_tokens {m : Token} (h : tokens line = m :: i.operands)
    (hm : upperText m = Opcode.mnemonic i.opcode) : decodeLine line = .ok i := by
  simp [decodeLine, h, hm, Opcode.ofMnemonic_mnemonic, Instr.build_opcode_operands]

/-- A line with another count of operands (R78). -/
theorem decodeLine_of_count {m : Token} {ops : List Token} {op : Opcode} (h : tokens line = m :: ops)
    (hm : upperText m = Opcode.mnemonic op) (hops : ops.length ≠ op.arity) :
    decodeLine line = .error ⟨.arityMismatch, line, none⟩ := by
  simp [decodeLine, h, hm, Opcode.ofMnemonic_mnemonic, Opcode.build_eq_none hops]

/-- A line whose first token is no mnemonic (R75). -/
theorem decodeLine_of_no_mnemonic {m : Token} {ops : List Token} (h : tokens line = m :: ops)
    (hm : ∀ op, upperText m ≠ Opcode.mnemonic op) : decodeLine line = .error ⟨.unknownOpcode, line, none⟩ := by
  simp [decodeLine, h, Opcode.ofMnemonic_eq_none_iff.mpr hm]

/-- A line decodes to an instruction whose operands are its tokens after the first, or fails with one of two errors. -/
theorem decodeLine_cases (line : Text) :
    (∃ i m, decodeLine line = .ok i ∧ tokens line = m :: i.operands) ∨
      ∃ e, decodeLine line = .error e ∧ (e.kind = .unknownOpcode ∨ e.kind = .arityMismatch) := by
  cases ht : tokens line with
  | nil => exact .inr ⟨⟨.unknownOpcode, line, none⟩, by simp [decodeLine, ht], .inl rfl⟩
  | cons m ops =>
    cases hm : Opcode.ofMnemonic (upperText m) with
    | none => exact .inr ⟨_, decodeLine_of_no_mnemonic ht (Opcode.ofMnemonic_eq_none_iff.mp hm), .inl rfl⟩
    | some op =>
      have hop := (Opcode.mnemonic_of_ofMnemonic hm).symm
      by_cases hlen : ops.length = op.arity
      · obtain ⟨i, -, rfl, rfl⟩ := Opcode.build_of_length hlen
        exact .inl ⟨i, m, decodeLine_of_tokens ht hop, rfl⟩
      · exact .inr ⟨_, decodeLine_of_count ht hop hlen, .inr rfl⟩

theorem decodeLine_error_kind (h : decodeLine line = .error e) :
    e.kind = .unknownOpcode ∨ e.kind = .arityMismatch := by
  obtain ⟨i, m, hi, -⟩ | ⟨e', he, hkind⟩ := decodeLine_cases line
  · simp [hi] at h
  · rw [he] at h
    cases h
    exact hkind

/-- What a line without `;` decodes to is well-formed (R80). -/
theorem wf_of_decodeLine (hline : ∀ c ∈ line, c ≠ ';') (h : decodeLine line = .ok i) : i.wf = true := by
  obtain ⟨j, m, hj, ht⟩ | ⟨e, he, -⟩ := decodeLine_cases line
  · rw [hj] at h
    cases h
    exact Instr.wf_iff.mpr fun t hmem => tokens_wf hline t (ht ▸ List.mem_cons_of_mem m hmem)
  · simp [he] at h

/-! ### Pass 2 -/

/-- A mapped outcome is good where the outcome is. -/
theorem except_map_eq_ok_iff {ε α β : Type} {x : Except ε α} {f : α → β} {b : β} :
    x.map f = .ok b ↔ ∃ a, x = .ok a ∧ f a = b := by
  cases x <;> simp [Except.map]

theorem decodeLines_cons_of_label (h : isLabelLine line = true) (rest : List Text) :
    decodeLines (line :: rest) = decodeLines rest := by
  simp [decodeLines, h]

theorem decodeLines_cons_of_error (h : isLabelLine line = false) (he : decodeLine line = .error e)
    (rest : List Text) : decodeLines (line :: rest) = .error e := by
  simp [decodeLines, h, he]

theorem decodeLines_cons_of_ok (h : isLabelLine line = false) (hi : decodeLine line = .ok i) (rest : List Text) :
    decodeLines (line :: rest) = (decodeLines rest).map (fun is => i :: is) := by
  simp only [decodeLines, h, hi, Bool.false_eq_true, if_false]
  cases decodeLines rest <;> rfl

/-- Pass 2 answers a program exactly where the instruction lines decode, in order, to its instructions (R84). -/
theorem decodeLines_eq_ok_iff (lines : List Text) (program : List Instr) :
    decodeLines lines = .ok program ↔
      (lines.filter (fun l => !isLabelLine l)).map decodeLine = program.map Except.ok := by
  induction lines generalizing program with
  | nil => cases program <;> simp [decodeLines]
  | cons line rest ih =>
    cases hl : isLabelLine line with
    | true => simp [decodeLines_cons_of_label hl, ih, hl]
    | false =>
      obtain ⟨i, -, hi, -⟩ | ⟨e, he, -⟩ := decodeLine_cases line
      · rw [decodeLines_cons_of_ok hl hi, except_map_eq_ok_iff]
        constructor
        · rintro ⟨is, his, rfl⟩
          simpa [hl, hi] using (ih is).mp his
        · intro h
          cases program with
          | nil => simp [hl] at h
          | cons j program =>
            simp only [List.filter_cons, hl, Bool.not_false, if_true, List.map_cons, hi, List.cons.injEq,
              Except.ok.injEq] at h
            obtain ⟨rfl, hrest⟩ := h
            exact ⟨program, (ih program).mpr hrest, rfl⟩
      · cases program <;> simp [decodeLines_cons_of_error hl he, hl, he]

/-- Pass 2 stops at the first instruction line that fails (R84). -/
theorem decodeLines_of_first_error {before : List Text}
    (hbefore : ∀ l ∈ before, isLabelLine l = false → ∃ i, decodeLine l = .ok i) (hl : isLabelLine line = false)
    (he : decodeLine line = .error e) (after : List Text) : decodeLines (before ++ line :: after) = .error e := by
  induction before with
  | nil => exact decodeLines_cons_of_error hl he after
  | cons first before ih =>
    obtain ⟨hfirst, hbefore⟩ := List.forall_mem_cons.mp hbefore
    have ih := ih hbefore
    cases hl' : isLabelLine first with
    | true => rwa [List.cons_append, decodeLines_cons_of_label hl']
    | false =>
      obtain ⟨i, hi⟩ := hfirst hl'
      rw [List.cons_append, decodeLines_cons_of_ok hl' hi, ih]
      rfl

/-- No error of pass 2 is of pass 1's kind. -/
theorem decodeLines_error_kind_ne {lines : List Text} (h : decodeLines lines = .error e) :
    e.kind ≠ .duplicateLabel := by
  induction lines with
  | nil => simp [decodeLines] at h
  | cons line rest ih =>
    cases hl : isLabelLine line with
    | true => exact ih (decodeLines_cons_of_label hl rest ▸ h)
    | false =>
      obtain ⟨i, -, hi, -⟩ | ⟨e', he, hkind⟩ := decodeLine_cases line
      · rw [decodeLines_cons_of_ok hl hi] at h
        cases hr : decodeLines rest with
        | ok is => simp [hr, Except.map] at h
        | error e' => exact ih (by simpa [hr, Except.map] using h)
      · rw [decodeLines_cons_of_error hl he] at h
        cases h
        exact fun hdup => by simp [hdup] at hkind

/-! ### The two passes -/

/-- Where label names are unique the load is pass 2's, with the bindings of pass 1. -/
theorem assemble_of_nodup (h : (labelNames (sourceLines text)).Nodup) :
    assemble text =
      (decodeLines (sourceLines text)).map (fun program => (program, labelBindings 0 (sourceLines text))) := by
  simp only [assemble, bindLabels_of_nodup h]
  cases decodeLines (sourceLines text) <;> rfl

/-- Where a name repeats the load fails with the first line that repeats one (R85). -/
theorem assemble_of_repeated {before after : List Text} (htext : sourceLines text = before ++ line :: after)
    (hl : isLabelLine line = true) (hd : (labelNames before).Nodup) (hm : labelName line ∈ labelNames before) :
    assemble text = .error ⟨.duplicateLabel, line, some (labelName line)⟩ := by
  simp only [assemble, htext, bindLabels_of_repeated hd hl hm after]

theorem labelNames_append (before after : List Text) :
    labelNames (before ++ after) = labelNames before ++ labelNames after := by
  simp [labelNames]

/-- Where names repeat there is a first line that repeats one. -/
theorem exists_first_repeated {lines : List Text} (h : ¬ (labelNames lines).Nodup) :
    ∃ before line after, lines = before ++ line :: after ∧ isLabelLine line = true ∧ (labelNames before).Nodup ∧
      labelName line ∈ labelNames before := by
  induction lines using List.reverseRecOn with
  | nil => simp at h
  | append_singleton lines line ih =>
    by_cases hd : (labelNames lines).Nodup
    · cases hl : isLabelLine line with
      | false => exact absurd (by simpa [labelNames_append, hl] using hd) h
      | true =>
        refine ⟨lines, line, [], rfl, hl, hd, ?_⟩
        by_contra hm
        refine h ?_
        simpa [labelNames_append, hl, List.nodup_append] using ⟨hd, fun a ha => by rintro rfl; exact hm ha⟩
    · obtain ⟨before, first, after, rfl, hrest⟩ := ih hd
      exact ⟨before, first, after ++ [line], by simp, hrest⟩

/-- A load that succeeds found unique names, and its two results are those of the two passes. -/
theorem of_assemble_eq_ok (h : assemble text = .ok (program, labels)) :
    (labelNames (sourceLines text)).Nodup ∧ decodeLines (sourceLines text) = .ok program ∧
      labels = labelBindings 0 (sourceLines text) := by
  by_cases hd : (labelNames (sourceLines text)).Nodup
  · rw [assemble_of_nodup hd, except_map_eq_ok_iff] at h
    obtain ⟨_, hp, heq⟩ := h
    cases heq
    exact ⟨hd, hp, rfl⟩
  · obtain ⟨before, line, after, htext, hl, hd, hm⟩ := exists_first_repeated hd
    simp [assemble_of_repeated htext hl hd hm] at h

/-- A label is bound to at most the number of instruction lines there are (R86). -/
theorem labelBindings_le (n : Nat) (lines : List Text) :
    ∀ l ∈ labelBindings n lines, l.2 ≤ n + instructionCount lines := by
  induction lines generalizing n with
  | nil => simp
  | cons line rest ih =>
    cases hl : isLabelLine line with
    | true => simpa [hl] using ih n
    | false =>
      intro l hmem
      have := ih (n + 1) l (by simpa [hl] using hmem)
      simp only [instructionCount_cons_of_instruction hl]
      omega

/-- A program that pass 2 answers has an instruction for each instruction line. -/
theorem length_of_decodeLines {lines : List Text} (h : decodeLines lines = .ok program) :
    program.length = instructionCount lines := by
  have := congrArg List.length ((decodeLines_eq_ok_iff _ _).mp h)
  simpa [instructionCount] using this.symm

/-- Each of its instructions is one line's. -/
theorem exists_line_of_decodeLines {lines : List Text} (h : decodeLines lines = .ok program) (hi : i ∈ program) :
    ∃ line ∈ lines, decodeLine line = .ok i := by
  have hmem : Except.ok i ∈ (lines.filter (fun l => !isLabelLine l)).map decodeLine :=
    (decodeLines_eq_ok_iff _ _).mp h ▸ List.mem_map_of_mem hi
  obtain ⟨line, hline, hdec⟩ := List.mem_map.mp hmem
  exact ⟨line, (List.mem_filter.mp hline).1, hdec⟩

/-- What a load that succeeds builds (R37, R80, R84, R86). -/
theorem assemble_wf (h : assemble text = .ok (program, labels)) :
    (∀ i ∈ program, i.wf = true) ∧ (labels.map Prod.fst).Nodup ∧ (∀ l ∈ labels, l.2 ≤ program.length) ∧
      program.length = instructionCount (sourceLines text) := by
  obtain ⟨hd, hp, rfl⟩ := of_assemble_eq_ok h
  have hlen := length_of_decodeLines hp
  refine ⟨fun i hi => ?_, by rwa [map_fst_labelBindings], fun l hl => ?_, hlen⟩
  · obtain ⟨line, hline, hdec⟩ := exists_line_of_decodeLines hp hi
    exact wf_of_decodeLine (fun c => ne_semicolon_of_mem_sourceLines hline) hdec
  · simpa [hlen] using labelBindings_le 0 _ l hl

/-! ### What a load leaves -/

theorem loadText_of_ok (h : assemble text = .ok (program, labels)) (s : State) :
    loadText text s = (.ok, { cleared s with program := program, labels := labels, loadFailed := false }) := by
  simp [loadText, h]

theorem loadText_of_error (h : assemble text = .error e) (s : State) :
    loadText text s = (.loadErr e, { cleared s with loadFailed := true }) := by
  simp [loadText, h]

/-- A load keeps the invariant: RAM and the parameters are as before, the rest is cleared or what the loader built. -/
theorem loadText_keeps_inv {s : State} (h : Inv s) (text : Text) : Inv (loadText text s).2 := by
  cases ha : assemble text with
  | error e =>
    rw [loadText_of_error ha]
    exact {
      ram := h.ram, params := h.params, elapsed_nonneg := le_rfl, elapsed_le := le_rfl
      program := by simp, labels_unique := List.nodup_nil, labels_le := by simp
      fault_not_halted := by simp, fault_record := by simp, load_failed := fun _ => rfl }
  | ok result =>
    obtain ⟨program, labels⟩ := result
    obtain ⟨hwf, hunique, hle, -⟩ := assemble_wf ha
    rw [loadText_of_ok ha]
    exact {
      ram := h.ram, params := h.params, elapsed_nonneg := le_rfl, elapsed_le := le_rfl
      program := hwf, labels_unique := hunique, labels_le := hle
      fault_not_halted := by simp, fault_record := by simp, load_failed := by simp }

end

/-! ### The obligations -/

/-- Settles O2: the load takes the printed line as it is, its tokens are the mnemonic and the operands, and it is no
label line. -/
theorem instructionLineRoundTrip : Obligations.InstructionLineRoundTrip := by
  intro i h
  have hline : decodeLine i.line = .ok i :=
    decodeLine_of_tokens (Instr.tokens_line h) (Opcode.upperText_mnemonic i.opcode)
  have hlines : decodeLines (sourceLines i.line) = .ok [i] := by
    simp [decodeLines_eq_ok_iff, Instr.sourceLines_line h, Instr.line_not_label, hline]
  rw [assemble_of_nodup (by simp [Instr.sourceLines_line h, Instr.line_not_label]), hlines]
  simp [Except.map, Instr.sourceLines_line h, Instr.line_not_label]

/-- Settles O4: the three arities are a closed check, and a line's first token and count decide how it decodes. -/
theorem instructionLineDecoding : Obligations.InstructionLineDecoding := by
  refine ⟨⟨by decide, by decide, by decide, Opcode.mem_all⟩, fun line m ops ht => ⟨fun op hm hlen => ?_,
    fun op => decodeLine_of_count ht, decodeLine_of_no_mnemonic ht⟩⟩
  obtain ⟨i, -, rfl, rfl⟩ := Opcode.build_of_length hlen
  exact ⟨i, decodeLine_of_tokens ht hm, rfl, rfl⟩

/-- Settles O6: pass 2 line by line. -/
theorem instructionLinesInOrder : Obligations.InstructionLinesInOrder := by
  refine fun lines => ⟨decodeLines_eq_ok_iff lines, ?_⟩
  rintro before line after e rfl hl hbefore he
  exact ⟨decodeLines_of_first_error hbefore hl he after, decodeLine_error_kind he⟩

/-- Settles O7: pass 1 fails exactly where a name repeats, at the first line that repeats one, and pass 2, which comes
after it, has no such error. -/
theorem duplicateLabelReportedFirst : Obligations.DuplicateLabelReportedFirst := by
  refine fun text => ⟨⟨fun ⟨e, he, hkind⟩ hd => ?_, fun hd => ?_⟩, fun before line after => assemble_of_repeated⟩
  · rw [assemble_of_nodup hd] at he
    cases hl : decodeLines (sourceLines text) with
    | ok program => simp [hl, Except.map] at he
    | error e' =>
      obtain rfl : e' = e := by simpa [hl, Except.map] using he
      exact decodeLines_error_kind_ne hl hkind
  · obtain ⟨before, line, after, htext, hl, hd, hm⟩ := exists_first_repeated hd
    exact ⟨_, assemble_of_repeated htext hl hd hm, rfl⟩

/-- Settles O8: the program is what the instruction lines decode to, and the labels are the bindings of pass 1. -/
theorem assembledProgramIsWellFormed : Obligations.AssembledProgramIsWellFormed := fun _ _ _ => assemble_wf

/-- Settles O49: the two ends of a load, each over the cleared machine. -/
theorem loadResetsAllButRam : Obligations.LoadResetsAllButRam := by
  intro text s t r h
  cases ha : assemble text with
  | ok result =>
    obtain ⟨program, labels⟩ := result
    rw [loadText_of_ok ha] at h
    cases h
    refine ⟨Regs.get_zero, rfl, rfl, rfl, rfl, rfl, rfl, rfl, rfl, rfl, ?_, nofun⟩
    rintro _ _ ⟨⟩
    exact ⟨rfl, rfl, rfl, rfl⟩
  | error e =>
    rw [loadText_of_error ha] at h
    cases h
    refine ⟨Regs.get_zero, rfl, rfl, rfl, rfl, rfl, rfl, rfl, rfl, rfl, nofun, ?_⟩
    rintro _ ⟨⟩
    exact ⟨rfl, rfl, rfl, rfl⟩

/-- Settles O59: a load clears what it does not keep, and what it builds is well-formed. -/
theorem loadKeepsInvariant : Obligations.LoadKeepsInvariant := fun text _ h => loadText_keeps_inv h text

end Sys2Proof.Machine

/-!
PROOFS. The remaining instructions (spec/41_control_transfer.md R141, R144 to R147; spec/42_arithmetic.md R160, R162;
spec/44_logic_compare.md R200 to R202; spec/45_sensor_device.md R223, R226): the conditional jumps as one shape, DECJZ
and READSENSOR path by path.
-/

namespace Sys2Proof.Machine

/-! ### Conditional jumps -/

/-- An instruction of the shape of a conditional jump has the rule of its condition. -/
theorem branchRule_of_jumpIf {mk : Token → Instr} {code : Nat} {cond : State → Bool} {taken : State → Prop}
    (henc : ∀ label, HasEncoding (mk label) code [.lbl])
    (hexec : ∀ label s, exec (mk label) s = jumpIf (mk label) label (cond s) s)
    (hcond : ∀ s, cond s = true ↔ taken s) : BranchRule mk code taken := by
  intro s label hu
  rw [hexec]
  refine ⟨henc label, fun k hk ht => ?_, fun k hk ht => ?_, fun hn => jumpIf_of_noLabel hn _⟩
  · rw [jumpIf_of_bindsTo hu hk, if_pos ((hcond s).mpr ht)]
  · rw [jumpIf_of_bindsTo hu hk, if_neg (mt (hcond s).mp ht)]

/-- A rule of a conditional jump says where it goes: one form for both outcomes. -/
theorem exec_of_branchRule {mk : Token → Instr} {code : Nat} {taken : State → Prop} (h : BranchRule mk code taken)
    {s : State} {label : Token} (hu : LabelsUnique s) {k : Nat} (hk : BindsTo s label k) {c : Prop} [Decidable c]
    (hc : taken s ↔ c) : exec (mk label) s = .next (stepped s (if c then (k : Int) else s.pc + 1)) := by
  obtain ⟨-, htaken, huntaken, -⟩ := h s label hu
  split_ifs with hcond
  · exact htaken k hk (hc.mpr hcond)
  · exact huntaken k hk (mt hc.mp hcond)

/-- Settles O13: JZ and JNZ are the shape with the two tests of ACC. -/
theorem jumpOnZeroRules : Obligations.JumpOnZeroRules :=
  ⟨branchRule_of_jumpIf (cond := accZero) (fun _ => ⟨rfl, rfl⟩) (fun _ _ => rfl) fun _ => decide_eq_true_iff,
    branchRule_of_jumpIf (cond := accNonzero) (fun _ => ⟨rfl, rfl⟩) (fun _ _ => rfl) fun _ => decide_eq_true_iff⟩

/-- Settles O14: JL and JG are the shape with the two comparisons of ACC with B. -/
theorem jumpOnOrderRules : Obligations.JumpOnOrderRules :=
  ⟨branchRule_of_jumpIf (cond := accLess) (fun _ => ⟨rfl, rfl⟩) (fun _ _ => rfl) fun _ => decide_eq_true_iff,
    branchRule_of_jumpIf (cond := accGreater) (fun _ => ⟨rfl, rfl⟩) (fun _ _ => rfl) fun _ => decide_eq_true_iff⟩

/-! ### CMP and then a branch -/

/-- CMP's result compares with 0 as the left operand compares with the right. -/
theorem cmpResult_eq_zero_iff (u w : Int) : cmpResult u w = 0 ↔ u = w := by
  rw [cmpResult_eq]
  omega

theorem cmpResult_neg_iff (u w : Int) : cmpResult u w < 0 ↔ u < w := by
  rw [cmpResult_eq]
  omega

theorem cmpResult_pos_iff (u w : Int) : 0 < cmpResult u w ↔ w < u := by
  rw [cmpResult_eq]
  omega

/-- What a branch needs of the CMP before it: the same labels, the comparison in ACC and B as it was. -/
theorem exec_cmp_frame {s : State} {left right : Token} {u w : Int} (hp : s.params.wf = true) (hu : Reads s left u)
    (hw : Reads s right w) :
    ∃ t, exec (.cmp left right) s = .next t ∧ t.labels = s.labels ∧ t.regs.get .acc = cmpResult u w ∧
      t.regs.get .b = s.regs.get .b :=
  ⟨_, exec_cmp_of_reads hp hu hw, rfl, Regs.get_set_same s.regs .acc _, rfl⟩

/-- Settles O43: each branch's own rule says where it goes by the sign that CMP left in ACC. -/
theorem compareThenBranch : Obligations.CompareThenBranch := by
  intro s left right label u w k hp hu hleft hright hk
  obtain ⟨t, hcmp, hlabels, hacc, hb⟩ := exec_cmp_frame hp hleft hright
  have hut : LabelsUnique t := by rwa [LabelsUnique, hlabels]
  have hkt : BindsTo t label k := by rwa [BindsTo, hlabels]
  refine ⟨t, hcmp, exec_of_branchRule jumpOnZeroRules.1 hut hkt ?_,
    exec_of_branchRule jumpOnZeroRules.2 hut hkt ?_, fun h0 => ⟨exec_of_branchRule jumpOnOrderRules.1 hut hkt ?_,
    exec_of_branchRule jumpOnOrderRules.2 hut hkt ?_⟩⟩
  · rw [hacc, cmpResult_eq_zero_iff]
  · rw [hacc, Ne, cmpResult_eq_zero_iff]
  · rw [hacc, hb, h0, cmpResult_neg_iff]
  · rw [hacc, hb, h0, gt_iff_lt, cmpResult_pos_iff]

/-! ### DECJZ -/

section
variable {s : State} {reg label name : Token}

theorem exec_decjz_of_isReg (hp : s.params.wf = true) (hu : LabelsUnique s) {r : RegId} {k : Nat}
    (hr : IsReg s reg r) (hk : BindsTo s label k) :
    exec (.decjz reg label) s = .next (if s.regs.get r = 0 then stepped s k else
      stepped { s with regs := s.regs.set r (s.regs.get r - 1) } (s.pc + 1)) := by
  simp only [exec, execDecjz, dst_of_isReg hp hr, target_of_bindsTo hu hk, bind, Except.bind, pure, Except.pure]
  split_ifs
  · exact conclude_jump _ _ _ _
  · exact conclude_advance _ _ _

theorem exec_decjz_of_noReg (h : NoReg s reg) :
    exec (.decjz reg label) s = .next (faulted s (.decjz reg label) .invalidRegister (.token reg)) := by
  simp [exec, execDecjz, dst_of_noReg h, bind, Except.bind]

theorem exec_decjz_of_noLabel (hp : s.params.wf = true) {r : RegId} (hr : IsReg s reg r) (h : NoLabel s label) :
    exec (.decjz reg label) s = .next (faulted s (.decjz reg label) .unresolvedLabel (.token label)) := by
  simp [exec, execDecjz, dst_of_isReg hp hr, target_of_noLabel h, bind, Except.bind]

/-! ### READSENSOR -/

theorem exec_readsensor_of_namesSensor (hp : s.params.wf = true) {r : RegId} {k : SensorId} (hr : IsReg s reg r)
    (hk : NamesSensor s name k) :
    exec (.readsensor reg name) s =
      .next (stepped ((sensorValue s k).2.setReg r (sensorValue s k).1) (s.pc + 1)) := by
  simp [exec, execReadsensor, dst_of_isReg hp hr, sensorOf_of_namesSensor hp hk, bind, Except.bind, pure, Except.pure]

theorem exec_readsensor_of_noReg (h : NoReg s reg) :
    exec (.readsensor reg name) s = .next (faulted s (.readsensor reg name) .invalidRegister (.token reg)) := by
  simp [exec, execReadsensor, dst_of_noReg h, bind, Except.bind]

theorem exec_readsensor_of_noSensor (hp : s.params.wf = true) {r : RegId} (hr : IsReg s reg r)
    (h : NoSensor s name) :
    exec (.readsensor reg name) s = .next (faulted s (.readsensor reg name) .unknownSensor (.token name)) := by
  simp [exec, execReadsensor, dst_of_isReg hp hr, sensorOf_of_noSensor h, bind, Except.bind]

/-! ### The value of an external sensor -/

/-- The bounds of an admissible source have a value in them, and its scripted values lie there. -/
theorem ExtSource.wf_iff {e : ExtSource} :
    e.wf = true ↔ (∀ lo hi, e.bounds = some (lo, hi) → lo ≤ hi) ∧ ∀ v ∈ e.script, withinBounds e.bounds v = true := by
  obtain ⟨source, script, _ | ⟨lo, hi⟩⟩ := e <;> simp [ExtSource.wf]

/-- A value brought within bounds that are an interval lies in them … -/
theorem withinBounds_clampTo {bounds : Option (Int × Int)} (h : ∀ lo hi, bounds = some (lo, hi) → lo ≤ hi) (v : Int) :
    withinBounds bounds (clampTo bounds v) = true := by
  match bounds with
  | none => rfl
  | some (lo, hi) =>
    have := h lo hi rfl
    simp [withinBounds, clampTo, this]

/-- … and is itself where it lay in them already. -/
theorem clampTo_of_withinBounds {bounds : Option (Int × Int)} {v : Int} (h : withinBounds bounds v = true) :
    clampTo bounds v = v := by
  match bounds with
  | none => rfl
  | some (lo, hi) =>
    obtain ⟨hlo, hhi⟩ : lo ≤ v ∧ v ≤ hi := by simpa [withinBounds] using h
    simp [clampTo, hlo, hhi]

/-- An admissible source supplies values within its bounds. -/
theorem withinBounds_sourceValue {e : ExtSource} (h : e.wf = true) (sensor draw : Nat) :
    withinBounds e.bounds (sourceValue e sensor draw) = true :=
  withinBounds_clampTo (ExtSource.wf_iff.mp h).1 _

/-- Where the host substituted a value, the source supplies that one. -/
theorem sourceValue_of_script {e : ExtSource} (h : e.wf = true) (sensor : Nat) {draw : Nat} {v : Int}
    (hv : e.script[draw]? = some v) : sourceValue e sensor draw = v := by
  rw [sourceValue, hv, Option.getD_some]
  exact clampTo_of_withinBounds ((ExtSource.wf_iff.mp h).2 v (List.mem_of_getElem? hv))

end

/-! ### The obligations -/

/-- Settles O10: both operands are looked up before the register's value is. -/
theorem decjzRule : Obligations.DecjzRule := by
  refine fun s reg label hp hu => ⟨⟨rfl, rfl⟩, fun r k hr hk h0 => ?_, fun r k hr hk h0 => ?_,
    exec_decjz_of_noReg, fun r => exec_decjz_of_noLabel hp⟩
  · rw [exec_decjz_of_isReg hp hu hr hk, if_pos h0]
  · rw [exec_decjz_of_isReg hp hu hr hk, if_neg h0]

/-- Settles O15: SET is the two-operand shape that takes the value read. -/
theorem setRule : Obligations.SetRule :=
  dstValRule_of_binaryOp (f := fun _ v => v) (fun _ _ => ⟨rfl, rfl⟩) (fun _ _ _ => rfl) fun _ _ _ => rfl

/-- Settles O17: DEC is the one-operand shape with the clamped decrement. -/
theorem decRule : Obligations.DecRule := by
  refine dstRule_of_unaryOp (f := decClamped) (fun _ => ⟨rfl, rfl⟩) (fun _ _ => rfl) fun x => ?_
  simp only [decClamped]
  omega

/-- Settles O24: the three are the two-operand shape, and each bit of their results is the operation on the two bits. -/
theorem andOrXorRules : Obligations.AndOrXorRules :=
  ⟨dstValRule_of_binaryOp (fun _ _ => ⟨rfl, rfl⟩) (fun _ _ _ => rfl) fun _ => bitAt_bitAnd,
    dstValRule_of_binaryOp (fun _ _ => ⟨rfl, rfl⟩) (fun _ _ _ => rfl) fun _ => bitAt_bitOr,
    dstValRule_of_binaryOp (fun _ _ => ⟨rfl, rfl⟩) (fun _ _ _ => rfl) fun _ => bitAt_bitXor⟩

/-- Settles O27: the derived sensors read the state, an external one makes its draw, of which the value is its source's
at its own draw number, and on an error nothing is drawn. -/
theorem readsensorRule : Obligations.ReadsensorRule := by
  refine fun s reg name hp => ⟨⟨rfl, rfl⟩, fun r => exec_readsensor_of_namesSensor hp,
    fun r => exec_readsensor_of_namesSensor hp, fun r => exec_readsensor_of_namesSensor hp, fun r k hr hk => ?_,
    exec_readsensor_of_noReg, fun r => exec_readsensor_of_noSensor hp⟩
  obtain ⟨sensor, hvalue⟩ := drawExt_value s k
  have hwf := Params.wf_source hp k
  refine ⟨(drawExt s k).1, ?_, hvalue ▸ withinBounds_sourceValue hwf _ _,
    fun x hx => hvalue.trans (sourceValue_of_script hwf sensor hx)⟩
  rw [exec_readsensor_of_namesSensor hp hr hk, sensorValue, drawExt_state]
  rfl

/-- Settles O29: STATUS has no check and writes the event alone. -/
theorem statusRule : Obligations.StatusRule := ⟨⟨rfl, rfl⟩, fun s => conclude_advance .status s (emitStatus s)⟩

/-- An operand reads alike in states that have the same registers and parameters. -/
theorem reads_congr {s t : State} (hparams : t.params = s.params) (hregs : t.regs = s.regs) (tok : Token) (v : Int) :
    Reads t tok v ↔ Reads s tok v := by
  simp only [Reads, NoReg, IsReg, hparams, hregs]

/-- What a LOAD needs of the STORE before it: the same registers and parameters, and the one word written. -/
theorem exec_store_frame {s : State} {value addr : Token} {v a : Int} (hp : s.params.wf = true) (hram : s.ram.wf)
    (hv : Reads s value v) (ha : Reads s addr a) :
    ∃ t, exec (.store value addr) s = .next t ∧ t.params = s.params ∧ t.regs = s.regs ∧
      ∀ b, t.ram.read b = if b = effectiveAddress a then v else s.ram.read b :=
  ⟨_, exec_store_of_reads hp hv ha, rfl, rfl, fun b => Memory.read_write hram _ b v⟩

/-- Settles O44: the LOAD's operands read as before the STORE, and its word is the one written exactly where the effective
addresses are equal. -/
theorem storeThenLoad : Obligations.StoreThenLoad := by
  intro s value addr reg addr' v a a' r hp hram hv ha ha' hr
  obtain ⟨t, hstore, hparams, hregs, hread⟩ := exec_store_frame hp hram hv ha
  have hrt : IsReg t reg r := by rwa [IsReg, hparams]
  have hload := binaryOp_of_reads (i := .load reg addr') (by rwa [hparams]) hrt
    ((reads_congr hparams hregs addr' a').mpr ha') (fun _ a => t.ram.read (effectiveAddress a))
  have haddr := effectiveAddress_eq a
  have haddr' := effectiveAddress_eq a'
  refine ⟨t, _, hstore, hload, fun heq => ?_, fun hne => ?_⟩
  · rw [stepped_regs, Regs.get_set_same, hread, if_pos (by omega)]
  · rw [stepped_regs, Regs.get_set_same, hread, if_neg (by omega)]

end Sys2Proof.Machine

/-!
PROOFS. The order of an instruction's checks (spec/60_exceptions.md R244): each rule is a chain of checks, and the first
of them that fails is the error of `firstError`.
-/

namespace Sys2Proof.Machine

section
variable {s t : State} {i : Instr}

/-! ### One check -/

/-- What a check raises, if it raises. -/
def raisedBy {α : Type} : Except Raised α → Option Raised
  | .error e => some e
  | .ok _ => none

theorem raisedBy_dst (s : State) (t : Token) : raisedBy (dst s t) = operandError s .dst t := by
  obtain ⟨r, hd, hr⟩ | ⟨hd, hn⟩ := dst_cases s t
  · have hname : ¬ NoReg s t := fun hn => hn r (RegId.mem_all r) hr
    rw [hd, operandError, if_neg hname, raisedBy]
  · rw [hd, operandError, if_pos hn, raisedBy]

theorem raisedBy_resolve (s : State) (t : Token) : raisedBy (resolve s t) = operandError s .val t := by
  obtain ⟨v, hv, hread⟩ | ⟨hv, hu⟩ := resolve_cases s t
  · have hreadable : ¬ Unreadable s t := by
      rintro ⟨hn, hl⟩
      obtain ⟨r, hr, hname, -⟩ | ⟨-, hlit⟩ := hread
      · exact hn r hr hname
      · simp [hl] at hlit
    rw [hv, operandError, if_neg hreadable, raisedBy]
  · rw [hv, operandError, if_pos hu, raisedBy]

theorem raisedBy_target (s : State) (t : Token) : raisedBy (target s t) = operandError s .lbl t := by
  obtain ⟨k, hk, hbound⟩ | ⟨hk, hn⟩ := target_cases s t
  · have hlabel : ¬ NoLabel s t := fun hn => hn (List.mem_map_of_mem (f := Prod.fst) hbound)
    rw [hk, operandError, if_neg hlabel, raisedBy]
  · rw [hk, operandError, if_pos hn, raisedBy]

theorem raisedBy_sensorOf (s : State) (t : Token) : raisedBy (sensorOf s t) = operandError s .sns t := by
  obtain ⟨k, hk, hname⟩ | ⟨hk, hn⟩ := sensorOf_cases s t
  · have hsensor : ¬ NoSensor s t := fun hn => hn k (SensorId.mem_all k) hname
    rw [hk, operandError, if_neg hsensor, raisedBy]
  · rw [hk, operandError, if_pos hn, raisedBy]

/-! ### The chain of checks of a rule -/

/-- The rule raises exactly the error given, and where that is none it leaves the latch and the count of steps. -/
def Reports (s : State) (err : Option Raised) : Except Raised Done → Prop
  | .error e => err = some e
  | .ok d => err = none ∧ d.state.fault = s.fault ∧ d.state.steps = s.steps

/-- A rule that begins with a check reports that check's error before those of the rest. -/
theorem Reports.bind {α : Type} {x : Except Raised α} {f : α → Except Raised Done} {first rest : Option Raised}
    (hx : raisedBy x = first) (h : ∀ a, x = .ok a → Reports s rest (f a)) :
    Reports s (first.or rest) (x >>= f) := by
  subst hx
  cases x with
  | error e => exact rfl
  | ok a => exact h a rfl

theorem Reports.raise (e : Raised) : Reports s (some e) (.error e) := rfl

theorem Reports.done {d : Done} (hfault : d.state.fault = s.fault) (hsteps : d.state.steps = s.steps) :
    Reports s none (.ok d) := ⟨rfl, hfault, hsteps⟩

/-- A choice between rules' ends. -/
theorem Reports.ite {c : Prop} [Decidable c] {d e : Done} (hd : Reports s none (.ok d)) (he : Reports s none (.ok e)) :
    Reports s none (.ok (if c then d else e)) := by
  split_ifs
  · exact hd
  · exact he

/-- The operands' checks in order, and then the instruction's own condition, as a chain. -/
def checks (s : State) (own : Option Raised) : List OperandKind → List Token → Option Raised
  | kind :: kinds, t :: ts => (operandError s kind t).or (checks s own kinds ts)
  | _, _ => own

theorem operandErrors_or (own : Option Raised) (kinds : List OperandKind) (ts : List Token) :
    (operandErrors s kinds ts).or own = checks s own kinds ts := by
  induction kinds generalizing ts with
  | nil => rfl
  | cons kind kinds ih =>
    cases ts with
    | nil => rfl
    | cons t ts => rw [operandErrors, Option.or_assoc, ih, checks]

theorem firstError_eq_checks (s : State) (i : Instr) :
    firstError s i = checks s (ownError s i) i.opcode.kinds i.operands :=
  operandErrors_or _ _ _

theorem ownError_ret (s : State) :
    ownError s .ret = if s.stack = [] then some ⟨.stackUnderflow, .none⟩ else none := rfl

theorem ownError_pop (s : State) (reg : Token) :
    ownError s (.pop reg) = if s.stack = [] then some ⟨.stackUnderflow, .none⟩ else none := rfl

/-- A divisor that reads as another value does not read as 0. -/
theorem ownError_div (hp : s.params.wf = true) {reg value : Token} {d : Int} (hd : resolve s value = .ok d) :
    ownError s (.div reg value) = if d = 0 then some ⟨.divisionByZero, .none⟩ else none := by
  have hiff : Reads s value 0 ↔ d = 0 := by
    refine ⟨fun h0 => ?_, fun h0 => ?_⟩
    · rw [resolve_of_reads hp h0] at hd
      cases hd
      rfl
    · obtain ⟨v, hv, hread⟩ | ⟨hv, -⟩ := resolve_cases s value
      · rw [hd] at hv
        cases hv
        exact h0 ▸ hread
      · simp [hd] at hv
  simp only [ownError, hiff]

/-- Every instruction is a rule that reports the first error of R244's order. -/
theorem exec_reports (hp : s.params.wf = true) (i : Instr) :
    ∃ body, exec i s = conclude i s body ∧ Reports s (firstError s i) body := by
  rw [firstError_eq_checks]
  cases i with
  | iniciar | parar | status | halt => exact ⟨_, rfl, .done rfl rfl⟩
  | inc _ | dec _ | not _ => exact ⟨_, rfl, .bind (raisedBy_dst s _) fun _ _ => .done rfl rfl⟩
  | goto _ | call _ => exact ⟨_, rfl, .bind (raisedBy_target s _) fun _ _ => .done rfl rfl⟩
  | jz _ | jnz _ | jl _ | jg _ =>
    exact ⟨_, rfl, .bind (raisedBy_target s _) fun _ _ => .ite (.done rfl rfl) (.done rfl rfl)⟩
  | push _ => exact ⟨_, rfl, .bind (raisedBy_resolve s _) fun _ _ => .done rfl rfl⟩
  | set _ _ | add _ _ | sub _ _ | mul _ _ | load _ _ | and _ _ | or _ _ | xor _ _ =>
    exact ⟨_, rfl, .bind (raisedBy_dst s _) fun _ _ => .bind (raisedBy_resolve s _) fun _ _ => .done rfl rfl⟩
  | store _ _ | cmp _ _ =>
    exact ⟨_, rfl, .bind (raisedBy_resolve s _) fun _ _ => .bind (raisedBy_resolve s _) fun _ _ => .done rfl rfl⟩
  | decjz _ _ =>
    exact ⟨_, rfl, .bind (raisedBy_dst s _) fun _ _ => .bind (raisedBy_target s _) fun _ _ =>
      .ite (.done rfl rfl) (.done rfl rfl)⟩
  | readsensor _ _ =>
    refine ⟨_, rfl, .bind (raisedBy_dst s _) fun _ _ => .bind (raisedBy_sensorOf s _) fun k _ => ?_⟩
    cases k with
    | ext k => cases k <;> exact .done rfl rfl
    | elapsed | speed | incline => exact .done rfl rfl
  | ret =>
    refine ⟨_, rfl, ?_⟩
    change Reports s (ownError s .ret) _
    rw [ownError_ret]
    cases s.stack with
    | nil => exact .raise _
    | cons v rest => exact .done rfl rfl
  | pop reg =>
    refine ⟨_, rfl, .bind (raisedBy_dst s _) fun _ _ => ?_⟩
    change Reports s (ownError s (.pop reg)) _
    rw [ownError_pop]
    cases s.stack with
    | nil => exact .raise _
    | cons v rest => exact .done rfl rfl
  | div reg value =>
    refine ⟨_, rfl, .bind (raisedBy_dst s _) fun _ _ => .bind (raisedBy_resolve s _) fun d hd => ?_⟩
    change Reports s (ownError s (.div reg value)) _
    rw [ownError_div hp hd]
    split_ifs
    · exact .raise _
    · exact .done rfl rfl

end

/-- Settles O32: an instruction's rule reports `firstError`, and the loop makes of an error the latch alone, of a
completed rule the end of a step. -/
theorem errorCheckOrder : Obligations.ErrorCheckOrder := by
  intro i s hp
  obtain ⟨body, hexec, hreports⟩ := exec_reports hp i
  cases body with
  | error e =>
    have herr : firstError s i = some e := hreports
    rw [herr, hexec]
    refine ⟨?_, nofun⟩
    rintro _ ⟨⟩
    exact conclude_error i s e.kind e.info
  | ok d =>
    obtain ⟨hnone, hfault, hsteps⟩ := hreports
    rw [hnone, hexec]
    exact ⟨nofun, fun _ => ⟨_, rfl, hfault, congrArg (· + 1) hsteps⟩⟩

end Sys2Proof.Machine

/-!
PROOFS. The machine between steps (spec/40_execution_loop.md R114; spec/70_reset_and_hazards.md R270, R279;
spec/10_state.md R40): which instruction a step runs, the four conditions, construction and the snapshot.
-/

namespace Sys2Proof.Machine

section
variable {s : State} {i : Instr}

/-- The instruction fetched is the one P has at pc (R27). -/
theorem fetch_eq_some_iff : fetch s = some i ↔ 0 ≤ s.pc ∧ s.program[s.pc.toNat]? = some i := by
  simp [fetch]

theorem mem_program_of_fetch (h : fetch s = some i) : i ∈ s.program :=
  List.mem_of_getElem? (fetch_eq_some_iff.mp h).2

/-- A machine is in one of the four conditions of R279. -/
theorem exists_condition (s : State) : IsRunning s ∨ IsAboutToStop s ∨ IsHalted s ∨ IsFaulted s := by
  cases hf : s.fault with
  | some e => exact .inr (.inr (.inr (by simp [IsFaulted, hf])))
  | none =>
    cases hh : s.halted with
    | true => exact .inr (.inr (.inl ⟨hh, hf⟩))
    | false =>
      by_cases hpc : 0 ≤ s.pc ∧ s.pc < s.program.length
      · exact .inl ⟨hh, hf, hpc⟩
      · exact .inr (.inl ⟨hh, hf, hpc⟩)

/-- A machine just constructed with admissible parameters meets the invariant. -/
theorem inv_construct {p : Params} (h : p.wf = true) : Inv (State.construct p) where
  ram := State.construct_ram_wf p
  params := h
  elapsed_nonneg := le_rfl
  elapsed_le := le_rfl
  program := by simp [State.construct]
  labels_unique := List.nodup_nil
  labels_le := by simp [State.construct]
  fault_not_halted := by simp [State.construct]
  fault_record := by simp [State.construct]
  load_failed := by simp [State.construct]

end

/-! ### The obligations -/

/-- Settles O45: an active step fetches, and what it fetches is the instruction at pc. -/
theorem stepRunsFetchedInstruction : Obligations.StepRunsFetchedInstruction := fun _ _ ha hpc hi =>
  step_of_fetch ha (fetch_eq_some_iff.mpr ⟨hpc, hi⟩)

/-- Settles O51: the latch, `halted` and the range of pc tell the four conditions apart, and each decides which branch of
the cycle the step takes. -/
theorem fourConditions : Obligations.FourConditions := by
  refine fun s _ hload => ⟨exists_condition s, ?_, ?_, ?_, ?_, ?_, ?_⟩
  · rintro ⟨⟨hh, hf, hpc⟩, ⟨-, -, hout⟩ | ⟨hh', -⟩ | hf'⟩
    · exact hout hpc
    · simp [hh] at hh'
    · simp [IsFaulted, hf] at hf'
  · rintro ⟨⟨hh, hf, -⟩, ⟨hh', -⟩ | hf'⟩
    · simp [hh] at hh'
    · simp [IsFaulted, hf] at hf'
  · rintro ⟨⟨-, hf⟩, hf'⟩
    simp [IsFaulted, hf] at hf'
  · rintro ⟨hh, hf, hpc⟩
    obtain ⟨i, hi⟩ : ∃ i, fetch s = some i := Option.ne_none_iff_exists'.mp fun hn => by
      have := fetch_eq_none_iff.mp hn
      omega
    exact ⟨i, mem_program_of_fetch hi, step_of_fetch ⟨hload, hf, hh⟩ hi⟩
  · rintro ⟨hh, hf, hpc⟩
    exact step_of_fetch_none ⟨hload, hf, hh⟩ (fetch_eq_none_iff.mpr (by omega))
  · rintro (⟨hh, -⟩ | hf)
    · exact step_of_halted hh hload
    · exact step_of_fault hf hload

/-- Settles O48: the fields of the constructed machine, whose empty program has no instruction at pc 0. -/
theorem constructedMachineState : Obligations.ConstructedMachineState := fun _ =>
  ⟨Regs.get_zero, fun _ => rfl, rfl, rfl, rfl, rfl, rfl, rfl, rfl, rfl, rfl, rfl, rfl,
    step_of_fetch_none ⟨rfl, rfl, rfl⟩ rfl⟩

/-- Settles O50: the words of RAM are those at 0..255 in order, and the stack is the model's turned round, so a push
appends. -/
theorem snapshotShowsRamAndStack : Obligations.SnapshotShowsRamAndStack := by
  refine fun s => ⟨by simp [snapshot, Config.ramSize], fun a ha => ?_, fun h => by simp [snapshot, h],
    List.length_reverse, fun v => List.reverse_cons, fun _ => rfl, rfl, rfl, rfl, rfl, rfl, rfl⟩
  simp [snapshot, Config.ramSize, ha]

/-- Settles O57: construction with any admissible parameters, the placeholders of the reset machine among them. -/
theorem constructedMachineMeetsInvariant : Obligations.ConstructedMachineMeetsInvariant :=
  ⟨inv_construct (by decide), fun _ => inv_construct⟩

end Sys2Proof.Machine
